-- ==== Sys2Proof/Word.lean ====
section
/-! DEFINITION. The data of the hardware and the one sub-word field it has.

Every cell, operand, input value, output value and result is a signed mathematical integer (rules R7, R8, R22), Lean's
`Int`: the spec adds, multiplies and compares these values exactly, never wraps them and never reads a bit of one
(rule R142), and the width of a cell is a range check (`CellBits.inRange` in Machine/Flags.lean), so no bit vector
stands for one. Addresses and the instruction pointer are natural numbers (rule R8). -/

namespace Sys2Proof

/-- `digit(w, k)`: the decimal digit of weight `10^k` of a non-negative number (rule R7). -/
def digit (w k : Nat) : Nat := (w / 10 ^ k) % 10

end Sys2Proof
end

