-- ==== Sys2Proof/Config.lean ====
section
/-! DEFINITION. What an implementation fixes (the parameter `CELL_BITS` of rule R6) and the one free value of the model
(the values an infinite or lazily produced input source delivers, rule R28). -/

namespace Sys2Proof

/-- `CELL_BITS` (rule R6): the width of a cell as a two's-complement signed integer, or `INF`, unbounded integers.
The spec admits every width of 16 or more (`CellBits.admitted` in Machine/Flags.lean). -/
inductive CellBits where
  /-- A cell of `n` bits. -/
  | bits (n : Nat)
  /-- `CELL_BITS = INF`: a cell holds any integer. -/
  | inf
  deriving DecidableEq, Repr

/-- The spec's default for `CELL_BITS`, 64 (rule R6). -/
def Config.defaultCellBits : CellBits := .bits 64

/-- FREE VALUE (DESIGN CHOICE, safe; assumption log 3): the value number `index` of the input source number `source`,
as the bits of a cell of `n` bits. It has no body: nothing can be proved of it but what holds of every source. -/
opaque Config.sourceBits (n : Nat) : (source index : Nat) → BitVec n

/-- FREE VALUE (DESIGN CHOICE, safe; assumption log 3): the same for `CELL_BITS = INF`, where a source may deliver any
integer. -/
opaque Config.sourceInteger : (source index : Nat) → Int

end Sys2Proof
end

