-- ==== Sys2Proof/Syntax.lean ====
section
/-! DEFINITION. The instructions: one constructor for each row of spec/opcode_table.json (rules R87, R104).

An instruction is what the Opcode Decoder reads from an instruction word (rule R82): the opcode, which is the
constructor, and the list of mode digits, which is the constructor's argument. The parameter cells are not part of it:
the engine fetches each of them from memory when it resolves that parameter (rule R117), and a jump that is not taken
never fetches its second one (rule R163; DEDUCED, safe; assumption log 12). -/

namespace Sys2Proof

/-- The mode digits of an instruction word, least significant first: position 0 is the mode digit of the first
parameter (rule R82). Digits 0 to 9 all occur (rule R85). -/
abbrev ModeDigits := List Nat

/-- The nine instructions of Intcode-PI (rule R87). -/
inductive Instr where
  /-- ADD, opcode 1 (rule R140). -/
  | add (modes : ModeDigits)
  /-- MUL, opcode 2 (rule R141). -/
  | mul (modes : ModeDigits)
  /-- IN, opcode 3 (rule R150). -/
  | inp (modes : ModeDigits)
  /-- OUT, opcode 4 (rule R151). -/
  | out (modes : ModeDigits)
  /-- JT, opcode 5 (rule R160). -/
  | jt (modes : ModeDigits)
  /-- JF, opcode 6 (rule R161). -/
  | jf (modes : ModeDigits)
  /-- LT, opcode 7 (rule R170). -/
  | lt (modes : ModeDigits)
  /-- EQ, opcode 8 (rule R171). -/
  | eq (modes : ModeDigits)
  /-- HALT, opcode 99 (rule R180). -/
  | halt (modes : ModeDigits)
  deriving DecidableEq, Repr

/-- The two parameter modes of the hardware (rule R84). -/
inductive ParamMode where
  /-- Digit 0: the operand is an address to dereference. -/
  | position
  /-- Digit 1: the operand is the value itself. -/
  | immediate
  deriving DecidableEq, Repr

/-- The mode digits an instruction carries. -/
def Instr.modes : Instr → ModeDigits
  | .add m => m
  | .mul m => m
  | .inp m => m
  | .out m => m
  | .jt m => m
  | .jf m => m
  | .lt m => m
  | .eq m => m
  | .halt m => m

end Sys2Proof
end

