-- ==== Sys2Proof/WellFormed.lean ====
section
/-! DEFINITION. Which instructions an instruction word can stand for: the mode digits are the decimal digits of a number,
without leading zeros (rule R82). -/

namespace Sys2Proof

/-- Every mode digit is a decimal digit, 0 to 9 (rules R82, R85). -/
def ModeDigits.areDecimal (modes : ModeDigits) : Bool := modes.all (fun d => decide (d < 10))

/-- The last, most significant digit of a non-empty list is not 0 (rule R82). -/
def ModeDigits.noLeadingZero (modes : ModeDigits) : Bool := modes.getLast? != some 0

/-- The instruction is one that some instruction word decodes to. -/
def Instr.wellFormed (i : Instr) : Bool := i.modes.areDecimal && i.modes.noLeadingZero

end Sys2Proof
end

