-- ==== Sys2Proof/Decode.lean ====
section
/-! DEFINITION. The Opcode Decoder (rules R80 to R96), the dispatch on the opcode (rules R87, R91, R116), and the
encoder that goes the other way. -/

namespace Sys2Proof

/-! ## Lists of decimal digits (rule R82) -/

/-- At most `fuel` decimal digits of `n`, least significant first, none for 0. -/
def decimalDigitsUpTo : (fuel n : Nat) → List Nat
  | 0, _ => []
  | fuel + 1, n => if n = 0 then [] else n % 10 :: decimalDigitsUpTo fuel (n / 10)

/-- The decimal digits of `n`, least significant first, none for 0 (rule R82). A number has no more digits than its
own value, so the fuel never runs out. -/
def decimalDigits (n : Nat) : List Nat := decimalDigitsUpTo n n

/-- The number whose decimal digits, least significant first, are given. -/
def digitsValue : List Nat → Nat
  | [] => 0
  | d :: ds => d + 10 * digitsValue ds

/-! ## The Opcode Decoder (rules R82 to R86, R96) -/

/-- The decoder's result: the two-digit opcode and the list of mode digits (rule R82). -/
structure Decoded where
  opcode : Nat
  modes : ModeDigits
  deriving DecidableEq, Repr

/-- `Decode(W)` for a non-negative word (rule R82); it cannot fail (rule R85). -/
def decodeWord (w : Nat) : Decoded := ⟨w % 100, decimalDigits (w / 100)⟩

/-- The mode accessor: the digit at position `i`, or 0, position mode, when it is absent (rule R83). -/
def modeAt (modes : ModeDigits) (i : Nat) : Nat := modes.getD i 0

/-- The outputs of the decoder block (rule R96). -/
structure DecoderPorts where
  opcode : Nat
  m1 : Nat
  m2 : Nat
  m3 : Nat
  modes : ModeDigits
  deriving DecidableEq, Repr

/-- The decoder as a block: its outputs are a function of `word` alone (rules R86, R96). -/
def decoderBlock (word : Nat) : DecoderPorts :=
  let d := decodeWord word
  ⟨d.opcode, modeAt d.modes 0, modeAt d.modes 1, modeAt d.modes 2, d.modes⟩

/-- The meaning of a mode digit: 0 is position, 1 is immediate, 2 to 9 are no modes (rules R84, R93). -/
def ParamMode.ofDigit : Nat → Option ParamMode
  | 0 => some .position
  | 1 => some .immediate
  | _ => none

/-! ## Dispatch (rules R87, R91, R116) -/

/-- The instruction an opcode selects, none for an illegal opcode (rules R87, R91). -/
def dispatch (d : Decoded) : Option Instr :=
  match d.opcode with
  | 1 => some (.add d.modes)
  | 2 => some (.mul d.modes)
  | 3 => some (.inp d.modes)
  | 4 => some (.out d.modes)
  | 5 => some (.jt d.modes)
  | 6 => some (.jf d.modes)
  | 7 => some (.lt d.modes)
  | 8 => some (.eq d.modes)
  | 99 => some (.halt d.modes)
  | _ => none

/-- Why a cell is not an instruction word. -/
inductive DecodeReject where
  /-- The cell is negative (rules R92, R114). -/
  | negativeOperationCode (w : Int)
  /-- The opcode is outside the defined set (rules R91, R116). -/
  | unknownOpcode (opcode : Nat)
  deriving DecidableEq, Repr

/-- The instruction a cell encodes, for every cell value: the sign check of rule R114, the decoder of rule R115 and
the dispatch of rule R116, in that order (DEDUCED, safe: rule R85 leaves the decoder undefined on negative words, and
this function hands it none; assumption log 18). -/
def decode (w : Int) : Except DecodeReject Instr :=
  if w < 0 then .error (.negativeOperationCode w)
  else
    match dispatch (decodeWord w.toNat) with
    | some i => .ok i
    | none => .error (.unknownOpcode (decodeWord w.toNat).opcode)

/-! ## Lengths and the encoder -/

/-- The number of parameters (the arity column of rule R87). -/
def Instr.arity : Instr → Nat
  | .add _ => 3
  | .mul _ => 3
  | .inp _ => 1
  | .out _ => 1
  | .jt _ => 2
  | .jf _ => 2
  | .lt _ => 3
  | .eq _ => 3
  | .halt _ => 0

/-- The number of cells, `1 + arity` (rules R80, R88). -/
def Instr.length (i : Instr) : Nat := 1 + i.arity

/-- The opcode (the opcode column of rule R87). -/
def Instr.opcode : Instr → Nat
  | .add _ => 1
  | .mul _ => 2
  | .inp _ => 3
  | .out _ => 4
  | .jt _ => 5
  | .jf _ => 6
  | .lt _ => 7
  | .eq _ => 8
  | .halt _ => 99

/-- The mode digit of parameter `n`, counted from 1 (rule R83). -/
def Instr.modeDigit (i : Instr) (n : Nat) : Nat := modeAt i.modes (n - 1)

/-- The instruction word of an instruction: the opcode in the two low decimal digits, the mode digits above
(rules R81, R102). -/
def encode (i : Instr) : Nat := i.opcode + 100 * digitsValue i.modes

/-! ## The words the host asks about -/

/-- Cell number `k` of the bits `w`, of which the table gives `nbits`, laid out as cells of `cb`: with `n`-bit cells
bit 0 of `w` is the lowest bit of the first cell and the bits of cell `k` begin at `n * k`, each cell read in two's
complement (rule R6); with unbounded cells all the bits are the first cell's. The hardware itself has no bit numbering
(rule R7; DESIGN CHOICE, safe; assumption log 7). -/
def tableCell (cb : CellBits) (nbits w k : Nat) : Int :=
  match cb with
  | .bits n =>
    let x := (w % 2 ^ nbits) / 2 ^ (n * k) % 2 ^ n
    if x < 2 ^ (n - 1) then (x : Int) else (x : Int) - ((2 ^ n : Nat) : Int)
  | .inf => if k = 0 then ((w % 2 ^ nbits : Nat) : Int) else 0

/-- The instruction this decoder reads from an instruction whose bits are `w`, at the default cell width. -/
def decodeTableWord (nbits w : Nat) : Option Instr :=
  match decode (tableCell Config.defaultCellBits nbits w 0) with
  | .ok i => some i
  | .error _ => none

end Sys2Proof
end

