-- ==== Sys2Proof/Machine/State.lean ====
section
/-! DEFINITION. The state of one engine instance (rule R20), as plain data, and its value after reset (rule R36). -/

namespace Sys2Proof.Machine

/-- The register `status` (rule R26). -/
inductive Status where
  | running
  | halted
  | faulted
  deriving DecidableEq, Repr

/-- `INPUT`, the sequence the host hands to Load (rule R28): finite, or infinite and perhaps lazily produced. -/
inductive Input where
  /-- A finite sequence, given value by value. -/
  | values (vs : List Int)
  /-- An infinite source, known by a number; its values are the free values of Config (DESIGN CHOICE, safe; assumption
  log 3). -/
  | source (n : Nat)
  deriving DecidableEq, Repr

/-- The fatal conditions with the value each records (rules R12, R200). -/
inductive FatalCondition where
  /-- Raised by Load only: a token of the program text is not a valid integer (rule R201). -/
  | malformedProgram
  /-- Raised by the fetch: the pointer is outside memory (rule R202). -/
  | invalidInstructionPointer (ip : Nat)
  /-- Raised after the fetch: the word is negative (rule R203). -/
  | negativeOperationCode (w : Int)
  /-- Raised at dispatch: the opcode is not defined (rule R204). -/
  | unknownOpcode (opcode : Nat)
  /-- Raised by a taken JT or JF: the target is negative (rule R205). -/
  | negativeJumpTarget (t : Int)
  /-- Raised by IN: no value remains (rule R206). -/
  | inputExhaustion
  /-- Raised by every instruction but HALT: an address outside memory (rule R207). -/
  | memoryOutOfBounds (a : Int)
  /-- Raised when a parameter is read whose mode digit is 2 to 9; records the word (rule R208). -/
  | invalidParameterMode (w : Nat)
  /-- Raised by ADD and MUL: the exact result does not fit a cell (rule R209). -/
  | arithmeticOverflow
  deriving DecidableEq, Repr

/-- Why the model's step would stop WITHOUT a next state. There is no such reason: every fatal condition of the
hardware is a state, `status = FAULTED` with its record, which the spec describes (rule R212), so a fatal condition is
a next state. No definition answers with a `Fault`; an empty type leaves nothing unsafe (DEDUCED, safe; assumption
log 4). -/
inductive Fault where
  deriving DecidableEq, Repr

/-- Why the model gives an instruction no meaning. -/
inductive Refusal where
  /-- The instruction of this mnemonic has no meaning yet. Raised by exec's arms only, and by none of them now: all nine
  instructions have their meaning. Safe: a stop where the hardware goes on. -/
  | notModelled (mnemonic : String)
  deriving DecidableEq, Repr

/-- The state of one engine instance: the tuple of rule R20, and the parameter `CELL_BITS` of the instance (rule R6).
`MEM_LEN` is the length of `mem`. -/
structure State where
  /-- The parameter `CELL_BITS` (rule R6); no step changes it (DESIGN CHOICE, safe; assumption log 1). -/
  cellBits : CellBits
  /-- `MEM` (rule R21): cell `a` is element `a` of the list (DESIGN CHOICE, safe; assumption log 2). -/
  mem : List Int
  /-- The instruction pointer, a natural number with no upper bound (rule R23). -/
  ip : Nat
  /-- `INPUT` (rule R28). -/
  input : Input
  /-- `cur`, the count of input values consumed (rule R28). -/
  cur : Nat
  /-- `OUT`, oldest value first (rule R29). -/
  out : List Int
  /-- `status` (rule R26). -/
  status : Status
  /-- `fcause`, the code of the fatal condition, 0 for none (rules R27, R200). -/
  fcause : Nat
  /-- `finfo`, the value the fatal condition records (rules R27, R200). -/
  finfo : Int
  deriving DecidableEq, Repr

/-- The state right after a successful Load of an image and an input sequence (rules R36, R245). -/
def State.ofImage (cb : CellBits) (image : List Int) (input : Input) : State where
  cellBits := cb
  mem := image
  ip := 0
  input := input
  cur := 0
  out := []
  status := .running
  fcause := 0
  finfo := 0

/-- The machine with every register at its reset value (rule R36) and NO program loaded: the image is the program's
and comes from outside, so it is empty here, and so is the input (DESIGN CHOICE, unsafe; assumption
log 5). -/
def State.reset : State := State.ofImage Config.defaultCellBits [] (.values [])

end Sys2Proof.Machine
end

