-- ==== Sys2Proof/Machine/Flags.lean ====
section
/-! DEFINITION. The hardware has no flags and no condition codes (rule R25). What stands in their place: the truth value
LT and EQ write to memory, and the range check that ADD and MUL make on their exact result (rules R22, R142). -/

namespace Sys2Proof

/-- The parameter values the spec admits: 16 bits or more, or `INF` (rule R6). -/
def CellBits.admitted : CellBits → Bool
  | .bits n => decide (16 ≤ n)
  | .inf => true

/-- `CELL_MIN` of an `n`-bit cell, `-2^(n-1)` (rule R6). -/
def cellMin (n : Nat) : Int := -((2 ^ (n - 1) : Nat) : Int)

/-- `CELL_MAX` of an `n`-bit cell, `2^(n-1) - 1` (rule R6). -/
def cellMax (n : Nat) : Int := ((2 ^ (n - 1) : Nat) : Int) - 1

/-- `InRange(v)`: the value fits a cell; always true with `INF` (rules R9, R22). -/
def CellBits.inRange (cb : CellBits) (v : Int) : Bool :=
  match cb with
  | .bits n => decide (cellMin n ≤ v) && decide (v ≤ cellMax n)
  | .inf => true

namespace Machine

/-- The exact result of ADD or MUL, or `ArithmeticOverflow` where it does not fit a cell: it never wraps, saturates or
truncates (rules R142, R209). -/
def narrow (cb : CellBits) (r : Int) : Except FatalCondition Int :=
  if cb.inRange r then .ok r else .error .arithmeticOverflow

/-- The cell value LT and EQ write: exactly 1 or 0 (rules R25, R170, R171). -/
def truthValue (b : Bool) : Int := if b then 1 else 0

end Machine

end Sys2Proof
end

