-- ==== Sys2Proof/Machine/Ops.lean ====
section
/-! DEFINITION. The named operations over memory, the pointer, the input, the output and the fault record: MemRead and
MemWrite (rules R52, R53), the input pull (rule R152), the pointer advance (rule R121), and fault entry (rule R212).

There is no return from a fatal condition and so no operation for one: `FAULTED` is terminal (rules R112, R214). -/

namespace Sys2Proof.Machine

/-! ## Fault entry (rules R200, R212) -/

/-- The code of a fatal condition, the value of `fcause` (rule R200). -/
def FatalCondition.code : FatalCondition → Nat
  | .malformedProgram => 1
  | .invalidInstructionPointer _ => 2
  | .negativeOperationCode _ => 3
  | .unknownOpcode _ => 4
  | .negativeJumpTarget _ => 5
  | .inputExhaustion => 6
  | .memoryOutOfBounds _ => 7
  | .invalidParameterMode _ => 8
  | .arithmeticOverflow => 9

/-- The value a fatal condition records in `finfo`, 0 where it records none (rule R200). -/
def FatalCondition.info : FatalCondition → Int
  | .malformedProgram => 0
  | .invalidInstructionPointer ip => ip
  | .negativeOperationCode w => w
  | .unknownOpcode opcode => opcode
  | .negativeJumpTarget t => t
  | .inputExhaustion => 0
  | .memoryOutOfBounds a => a
  | .invalidParameterMode w => w
  | .arithmeticOverflow => 0

/-- Fault entry: `status`, `fcause` and `finfo` are written and nothing else changes (rule R212). `s` is the state
before the step, so every effect the step had computed is discarded. -/
def raiseFatal (c : FatalCondition) (s : State) : State :=
  { s with status := .faulted, fcause := c.code, finfo := c.info }

/-- The end of an instruction begun in `s`: the state it commits, or fault entry. Both are next states. -/
def conclude (s : State) (r : Except FatalCondition State) : Host.Outcome State Fault Refusal :=
  match r with
  | .ok t => .next t
  | .error c => .next (raiseFatal c s)

/-! ## Memory (rules R51 to R53) -/

/-- The bounds check: an address is valid when it lies in `[0, MEM_LEN-1]` (rule R51). -/
def checkAddress (mem : List Int) (a : Int) : Except FatalCondition Int :=
  if 0 ≤ a ∧ a < (mem.length : Int) then .ok a else .error (.memoryOutOfBounds a)

/-- `MemRead(a)` (rule R52). -/
def memRead (mem : List Int) (a : Int) : Except FatalCondition Int :=
  if a < 0 then .error (.memoryOutOfBounds a)
  else
    match mem[a.toNat]? with
    | some v => .ok v
    | none => .error (.memoryOutOfBounds a)

/-- `MemWrite(a, v)` (rule R53): no other cell changes, and memory grows or shrinks by no access (rule R51). -/
def memWrite (mem : List Int) (a : Int) (v : Int) : Except FatalCondition (List Int) :=
  if 0 ≤ a ∧ a < (mem.length : Int) then .ok (mem.set a.toNat v) else .error (.memoryOutOfBounds a)

/-- Every cell holds a value of the cell range (rule R22). The list is otherwise its own canonical form: address `a` is
element `a`, so two memories that read alike are the same list (Laws/Memory.lean). -/
def Memory.wf (cb : CellBits) (mem : List Int) : Bool := mem.all cb.inRange

/-! ## Input and output (rules R28, R29, R152) -/

/-- The value number `k` an infinite source delivers: a free value of the cell range (rule R28; assumption log 3). -/
def sourceValue (cb : CellBits) (source k : Nat) : Int :=
  match cb with
  | .bits n => (Config.sourceBits n source k).toInt
  | .inf => Config.sourceInteger source k

/-- `INPUT[k]`, none where the sequence is finite and `k` is its length or more (rule R28). -/
def Input.valueAt (cb : CellBits) (input : Input) (k : Nat) : Option Int :=
  match input with
  | .values vs => vs[k]?
  | .source n => some (sourceValue cb n k)

/-- Every value of the input lies in the cell range (rule R28); an infinite source does by its type. -/
def Input.wf (cb : CellBits) (input : Input) : Bool :=
  match input with
  | .values vs => vs.all cb.inRange
  | .source _ => true

/-- The input cursor moved past one value (rules R28, R152). -/
def State.consume (s : State) : State := { s with cur := s.cur + 1 }

/-- `InNext()`: the next input value and the state with `cur` advanced by 1, or `InputExhaustion` (rule R152). -/
def inNext (s : State) : Except FatalCondition (Int × State) :=
  match s.input.valueAt s.cellBits s.cur with
  | some v => .ok (v, s.consume)
  | none => .error .inputExhaustion

/-! ## Commit (rules R121, R122) -/

/-- The pointer advance by an instruction's length (rule R121); it is not compared with `MEM_LEN` here (rule R113). -/
def State.advance (s : State) (n : Nat) : State := { s with ip := s.ip + n }

/-- A taken jump's write of the pointer (rules R121, R162). -/
def State.jumpTo (s : State) (t : Nat) : State := { s with ip := t }

/-- OUT's append (rules R29, R151). -/
def State.appendOut (s : State) (v : Int) : State := { s with out := s.out ++ [v] }

/-- HALT's write of `status` (rule R180). -/
def State.stop (s : State) : State := { s with status := .halted }

/-- The state whose memory is `mem`. -/
def State.withMem (s : State) (mem : List Int) : State := { s with mem := mem }

/-- The commit of an instruction of length `n` that stores `v` at address `a`: MemWrite, then the advance (rules R53,
R121, R122). -/
def storeAndAdvance (a : Int) (v : Int) (n : Nat) (s : State) : Except FatalCondition State :=
  match memWrite s.mem a v with
  | .ok mem => .ok ((s.withMem mem).advance n)
  | .error c => .error c

end Sys2Proof.Machine
end

