-- ==== Sys2Proof/Machine/Operands.lean ====
section
/-! DEFINITION. Operand resolution: Raw, Read and Dst (rules R117 to R119), and the order in which the four-cell
instructions resolve their parameters (rule R120). -/

namespace Sys2Proof.Machine

/-- `Raw(N)`: the cell of parameter `n`, at `ip + n` (rule R117). -/
def rawParam (n : Nat) (s : State) : Except FatalCondition Int := memRead s.mem ((s.ip + n : Nat) : Int)

/-- `Read(N)`: the value of a read parameter. The cell is fetched, then the mode digit is looked at, then a position
operand is dereferenced, once (rule R118). -/
def readParam (i : Instr) (n : Nat) (s : State) : Except FatalCondition Int :=
  match rawParam n s with
  | .error c => .error c
  | .ok raw =>
    match ParamMode.ofDigit (i.modeDigit n) with
    | some .position => memRead s.mem raw
    | some .immediate => .ok raw
    | none => .error (.invalidParameterMode (encode i))

/-- `Dst(N)`: the address of a written parameter. Its mode digit is not looked at and the cell it names is not read
(rules R94, R119). -/
def dstParam (n : Nat) (s : State) : Except FatalCondition Int :=
  match rawParam n s with
  | .error c => .error c
  | .ok raw => checkAddress s.mem raw

/-- The template of the four-cell instructions: `Read(1)`, `Read(2)`, `Dst(3)`, the result with its range check, the
store, the advance, in that order (rule R120). -/
def computeAndStore (i : Instr) (result : Int → Int → Except FatalCondition Int) (s : State) :
    Except FatalCondition State :=
  match readParam i 1 s with
  | .error c => .error c
  | .ok a =>
    match readParam i 2 s with
    | .error c => .error c
    | .ok b =>
      match dstParam 3 s with
      | .error c => .error c
      | .ok d =>
        match result a b with
        | .error c => .error c
        | .ok r => storeAndAdvance d r i.length s

end Sys2Proof.Machine
end

