-- ==== Sys2Proof/Machine/Arithmetic.lean ====
section
/-! DEFINITION. ADD and MUL (rules R140 to R143). -/

namespace Sys2Proof.Machine

/-- ADD: `mem[dst] = read(p1) + read(p2)`, the exact sum, which must fit a cell (rules R140, R142). -/
def execAdd (modes : ModeDigits) (s : State) : Host.Outcome State Fault Refusal :=
  conclude s (computeAndStore (.add modes) (fun a b => narrow s.cellBits (a + b)) s)

/-- MUL: `mem[dst] = read(p1) * read(p2)`, the exact product, which must fit a cell (rules R141, R142). -/
def execMul (modes : ModeDigits) (s : State) : Host.Outcome State Fault Refusal :=
  conclude s (computeAndStore (.mul modes) (fun a b => narrow s.cellBits (a * b)) s)

end Sys2Proof.Machine
end

