-- ==== Sys2Proof/Machine/Compare.lean ====
section
/-! DEFINITION. LT and EQ (rules R170 to R172). -/

namespace Sys2Proof.Machine

/-- LT: `mem[dst] = 1 if read(p1) < read(p2) else 0`, on signed values; nothing is subtracted, so nothing overflows
(rule R170). -/
def execLt (modes : ModeDigits) (s : State) : Host.Outcome State Fault Refusal :=
  conclude s (computeAndStore (.lt modes) (fun a b => .ok (truthValue (decide (a < b)))) s)

/-- EQ: `mem[dst] = 1 if read(p1) == read(p2) else 0` (rule R171). -/
def execEq (modes : ModeDigits) (s : State) : Host.Outcome State Fault Refusal :=
  conclude s (computeAndStore (.eq modes) (fun a b => .ok (truthValue (decide (a = b)))) s)

end Sys2Proof.Machine
end

