-- ==== Sys2Proof/Machine/Halt.lean ====
section
/-! DEFINITION. HALT (rules R180, R181). -/

namespace Sys2Proof.Machine

/-- HALT: `status <- HALTED`; the pointer stays at the HALT word, no parameter cell is fetched and every mode digit is
ignored (rules R94, R180). -/
def execHalt (_modes : ModeDigits) (s : State) : Host.Outcome State Fault Refusal :=
  conclude s (.ok s.stop)

end Sys2Proof.Machine
end

