-- ==== Sys2Proof/Machine/InputOutput.lean ====
section
/-! DEFINITION. IN and OUT (rules R150 to R153). -/

namespace Sys2Proof.Machine

/-- The effect of IN: the destination address is checked before the input is pulled, so a bad destination consumes no
value (rules R120, R150). -/
def pullAndStore (i : Instr) (s : State) : Except FatalCondition State :=
  match dstParam 1 s with
  | .error c => .error c
  | .ok d =>
    match inNext s with
    | .error c => .error c
    | .ok (v, t) => storeAndAdvance d v i.length t

/-- IN: `mem[dst] = next(input_sequence)`; fatal if the input is exhausted (rule R150). -/
def execInp (modes : ModeDigits) (s : State) : Host.Outcome State Fault Refusal :=
  conclude s (pullAndStore (.inp modes) s)

/-- The effect of OUT: the value of parameter 1 is appended (rule R151). -/
def readAndAppend (i : Instr) (s : State) : Except FatalCondition State :=
  match readParam i 1 s with
  | .error c => .error c
  | .ok a => .ok ((s.appendOut a).advance i.length)

/-- OUT: append `read(p1)` to the output sequence (rule R151). -/
def execOut (modes : ModeDigits) (s : State) : Host.Outcome State Fault Refusal :=
  conclude s (readAndAppend (.out modes) s)

end Sys2Proof.Machine
end

