-- ==== Sys2Proof/Machine/Jumps.lean ====
section
/-! DEFINITION. JT and JF (rules R160 to R164). -/

namespace Sys2Proof.Machine

/-- The target of a taken jump: only its sign is checked (rules R162, R205). -/
def checkTarget (t : Int) : Except FatalCondition Nat :=
  if t < 0 then .error (.negativeJumpTarget t) else .ok t.toNat

/-- A conditional jump: parameter 1 is read; parameter 2 is resolved only when the jump is taken (rules R120, R163). -/
def jumpWhen (i : Instr) (taken : Int → Bool) (s : State) : Except FatalCondition State :=
  match readParam i 1 s with
  | .error c => .error c
  | .ok a =>
    if taken a then
      match readParam i 2 s with
      | .error c => .error c
      | .ok t =>
        match checkTarget t with
        | .error c => .error c
        | .ok target => .ok (s.jumpTo target)
    else .ok (s.advance i.length)

/-- JT: jump if `read(p1) != 0` (rule R160). -/
def execJt (modes : ModeDigits) (s : State) : Host.Outcome State Fault Refusal :=
  conclude s (jumpWhen (.jt modes) (fun a => decide (a ≠ 0)) s)

/-- JF: jump if `read(p1) == 0` (rule R161). -/
def execJf (modes : ModeDigits) (s : State) : Host.Outcome State Fault Refusal :=
  conclude s (jumpWhen (.jf modes) (fun a => decide (a = 0)) s)

end Sys2Proof.Machine
end

