-- ==== Sys2Proof/Machine/Dispatch.lean ====
section
/-! DEFINITION. One arm per instruction: the instruction's meaning (rule R116). -/

namespace Sys2Proof.Machine

/-- The execution of the instruction `i` at the pointer of `s` (rules R110, R116). It does not look at
`status`: `step` does, before it (DESIGN CHOICE, safe; assumption log 17). -/
def exec (i : Instr) (s : State) : Host.Outcome State Fault Refusal :=
  match i with
  | .add modes => Sys2Proof.Machine.execAdd modes s
  | .mul modes => Sys2Proof.Machine.execMul modes s
  | .inp modes => Sys2Proof.Machine.execInp modes s
  | .out modes => Sys2Proof.Machine.execOut modes s
  | .jt modes => Sys2Proof.Machine.execJt modes s
  | .jf modes => Sys2Proof.Machine.execJf modes s
  | .lt modes => Sys2Proof.Machine.execLt modes s
  | .eq modes => Sys2Proof.Machine.execEq modes s
  | .halt modes => Sys2Proof.Machine.execHalt modes s

end Sys2Proof.Machine
end

