-- ==== Sys2Proof/Machine/Fetch.lean ====
section
/-! DEFINITION. The front of a step: fetch, sign check, decode and dispatch (rules R113 to R116); and the placing of an
instruction's cells in memory, for the host's question (DESIGN CHOICE, safe; assumption log 6). -/

namespace Sys2Proof.Machine

/-- The fetch: the cell at the pointer, or `InvalidInstructionPointer` (rule R113). It reads memory as it stands now
(rule R62). -/
def fetchWord (s : State) : Except FatalCondition Int :=
  match s.mem[s.ip]? with
  | some w => .ok w
  | none => .error (.invalidInstructionPointer s.ip)

/-- The fatal condition a cell that is no instruction word raises (rules R203, R204). -/
def fatalOfReject : DecodeReject → FatalCondition
  | .negativeOperationCode w => .negativeOperationCode w
  | .unknownOpcode opcode => .unknownOpcode opcode

/-- The instruction at the pointer, or the fatal condition of the first check that fails (rules R113 to R116, R211). -/
def fetchInstr (s : State) : Except FatalCondition Instr :=
  match fetchWord s with
  | .error c => .error c
  | .ok w =>
    match decode w with
    | .error r => .error (fatalOfReject r)
    | .ok i => .ok i

/-- `cells` written over memory from address `a` on, memory being made as long as that needs, with zeros in between. -/
def placeCells (mem : List Int) (a : Nat) (cells : List Int) : List Int :=
  mem.take a ++ List.replicate (a - mem.length) 0 ++ cells ++ mem.drop (a + cells.length)

/-- The four cells (the longest instruction, rule R80) that the bits `w` make. -/
def tableCells (cb : CellBits) (nbits w : Nat) : List Int :=
  [tableCell cb nbits w 0, tableCell cb nbits w 1, tableCell cb nbits w 2, tableCell cb nbits w 3]

/-- The state with the instruction of bits `w` at the pointer, ready to be fetched: the status registers are those of a
running engine (rule R36), since no step fetches otherwise (rules R111, R112). -/
def placeInstruction (s : State) (nbits w : Nat) : State :=
  { s with
    mem := placeCells s.mem s.ip (tableCells s.cellBits nbits w)
    status := .running
    fcause := 0
    finfo := 0 }

end Sys2Proof.Machine
end

