-- ==== Sys2Proof/Machine/Step.lean ====
section
/-! DEFINITION. One Step of the engine (rule R110). -/

namespace Sys2Proof.Machine

/-- Step (rules R110 to R116): a halted or faulted engine does nothing; a running one fetches, decodes and executes one
instruction, or raises the fatal condition of its fetch. Every Step answers a next state (rule R212). The spec's
own decisions D10, D11 and D13 are followed (assumption log 13). -/
def step (s : State) : Host.Outcome State Fault Refusal :=
  match s.status with
  | .running =>
    match fetchInstr s with
    | .error c => .next (raiseFatal c s)
    | .ok i => exec i s
  | .halted => .next s
  | .faulted => .next s

/-- `s` with the instruction of bits `w` where `step` fetches its next instruction (DESIGN CHOICE, safe; assumption log
6). -/
def State.withFetchWord (s : State) (nbits w : Nat) : State := placeInstruction s nbits w

end Sys2Proof.Machine
end

