-- ==== Sys2Proof/Machine/Listing.lean ====
section
/-! DEFINITION. The spec's listing notation (rules R11, R100 to R102): a line is one instruction with its operands, or
one data cell, and stands for cells. The hardware does not read it. -/

namespace Sys2Proof.Machine

/-- A read operand: `[a]`, position mode, or `#v`, immediate mode (rule R101). -/
inductive ReadOperand where
  | position (a : Int)
  | immediate (v : Int)
  deriving DecidableEq, Repr

/-- A listing line; the last argument of a storing instruction is its destination `->[a]` (rule R101). -/
inductive ListingLine where
  | add (x y : ReadOperand) (dst : Int)
  | mul (x y : ReadOperand) (dst : Int)
  | inp (dst : Int)
  | out (x : ReadOperand)
  | jt (x target : ReadOperand)
  | jf (x target : ReadOperand)
  | lt (x y : ReadOperand) (dst : Int)
  | eq (x y : ReadOperand) (dst : Int)
  | halt
  | data (v : Int)
  deriving DecidableEq, Repr

/-- 1 for `#v`, 0 otherwise (rule R102). -/
def ReadOperand.modeDigit : ReadOperand → Nat
  | .position _ => 0
  | .immediate _ => 1

/-- What the operand's cell holds (rule R101). -/
def ReadOperand.cell : ReadOperand → Int
  | .position a => a
  | .immediate v => v

/-- The instruction word of a line with mode digits `a` and `b`: `opcode + 100 * A + 1000 * B` (rule R102). -/
def listingWord (opcode a b : Nat) : Int := ((opcode + 100 * a + 1000 * b : Nat) : Int)

/-- The cells of a four-cell line (rule R102). -/
def cellsF3 (opcode : Nat) (x y : ReadOperand) (dst : Int) : List Int :=
  [listingWord opcode x.modeDigit y.modeDigit, x.cell, y.cell, dst]

/-- The cells of a jump line (rule R102). -/
def cellsF2 (opcode : Nat) (x target : ReadOperand) : List Int :=
  [listingWord opcode x.modeDigit target.modeDigit, x.cell, target.cell]

/-- The cells of a listing line (rule R102). -/
def ListingLine.cells : ListingLine → List Int
  | .add x y d => cellsF3 1 x y d
  | .mul x y d => cellsF3 2 x y d
  | .inp d => [listingWord 3 0 0, d]
  | .out x => [listingWord 4 x.modeDigit 0, x.cell]
  | .jt x t => cellsF2 5 x t
  | .jf x t => cellsF2 6 x t
  | .lt x y d => cellsF3 7 x y d
  | .eq x y d => cellsF3 8 x y d
  | .halt => [listingWord 99 0 0]
  | .data v => [v]

/-- The written form of a read operand (rule R101). -/
def ReadOperand.text : ReadOperand → String
  | .position a => "[" ++ toString a ++ "]"
  | .immediate v => "#" ++ toString v

/-- The written form of a destination operand (rule R101). -/
def dstText (a : Int) : String := "->[" ++ toString a ++ "]"

/-- The written form of a line (rule R101). -/
def ListingLine.text : ListingLine → String
  | .add x y d => "ADD " ++ x.text ++ ", " ++ y.text ++ ", " ++ dstText d
  | .mul x y d => "MUL " ++ x.text ++ ", " ++ y.text ++ ", " ++ dstText d
  | .inp d => "IN " ++ dstText d
  | .out x => "OUT " ++ x.text
  | .jt x t => "JT " ++ x.text ++ ", " ++ t.text
  | .jf x t => "JF " ++ x.text ++ ", " ++ t.text
  | .lt x y d => "LT " ++ x.text ++ ", " ++ y.text ++ ", " ++ dstText d
  | .eq x y d => "EQ " ++ x.text ++ ", " ++ y.text ++ ", " ++ dstText d
  | .halt => "HALT"
  | .data v => "DATA " ++ toString v

end Sys2Proof.Machine
end

