-- ==== Sys2Proof/Machine/Load.lean ====
section
/-! DEFINITION. Load, the machine's only reset (rules R240 to R245), with the program text it parses (rules R97 to R99).
A text is a list of characters (DESIGN CHOICE, safe; assumption log 14). -/

namespace Sys2Proof.Machine

/-! ## Parsing (rule R98) -/

/-- Step 1 removes line feeds and carriage returns. -/
def isLineBreak (c : Char) : Bool := c == '\n' || c == '\r'

/-- Step 3 trims spaces and tabs. -/
def isBlank (c : Char) : Bool := c == ' ' || c == '\t'

/-- Step 2: a text with `k` commas gives `k + 1` tokens, some possibly empty. -/
def splitAtCommas : List Char → List (List Char)
  | [] => [[]]
  | c :: cs =>
    if c = ',' then [] :: splitAtCommas cs
    else
      match splitAtCommas cs with
      | [] => [[c]]
      | t :: ts => (c :: t) :: ts

/-- Step 3: leading and trailing spaces and tabs are removed from a token. -/
def trimBlanks (t : List Char) : List Char := ((t.dropWhile isBlank).reverse.dropWhile isBlank).reverse

/-- The value of a decimal digit character, none for any other character. -/
def digitOfChar (c : Char) : Option Nat :=
  if 48 ≤ c.toNat ∧ c.toNat ≤ 57 then some (c.toNat - 48) else none

/-- Decimal digits read from the left, `acc` being the value of those already read. -/
def parseDigits : List Char → (acc : Nat) → Option Nat
  | [], acc => some acc
  | c :: cs, acc =>
    match digitOfChar c with
    | some d => parseDigits cs (10 * acc + d)
    | none => none

/-- One or more decimal digits; leading zeros are allowed. -/
def parseNatural : List Char → Option Nat
  | [] => none
  | c :: cs => parseDigits (c :: cs) 0

/-- Step 4, the grammar: an optional `-`, then one or more decimal digits. -/
def parseInteger : List Char → Option Int
  | [] => none
  | c :: cs =>
    if c = '-' then
      match parseNatural cs with
      | some n => some (-(n : Int))
      | none => none
    else
      match parseNatural (c :: cs) with
      | some n => some (n : Int)
      | none => none

/-- Steps 3 and 4 on one token: trimmed, of the grammar, with a value in the cell range. -/
def parseToken (cb : CellBits) (t : List Char) : Option Int :=
  match parseInteger (trimBlanks t) with
  | some v => if cb.inRange v then some v else none
  | none => none

/-- The values of all tokens in order, none if any token is not valid (rule R242). -/
def parseTokens (cb : CellBits) : List (List Char) → Option (List Int)
  | [] => some []
  | t :: ts =>
    match parseToken cb t with
    | some v =>
      match parseTokens cb ts with
      | some vs => some (v :: vs)
      | none => none
    | none => none

/-- The image a program text gives, none for a malformed text (rules R98, R241). -/
def parseProgram (cb : CellBits) (text : List Char) : Option (List Int) :=
  parseTokens cb (splitAtCommas (text.filter (fun c => !isLineBreak c)))

/-! ## Program text of an image (rule R97) -/

/-- The decimal digits of a natural number as characters, most significant first. -/
def naturalText (n : Nat) : List Char :=
  if n = 0 then ['0'] else (decimalDigits n).reverse.map (fun d => Char.ofNat (48 + d))

/-- A signed decimal integer. -/
def integerText (v : Int) : List Char :=
  if v < 0 then '-' :: naturalText v.natAbs else naturalText v.natAbs

/-- The program text of an image: its integers joined by commas (rule R97). -/
def programText : List Int → List Char
  | [] => []
  | v :: vs =>
    match vs with
    | [] => integerText v
    | w :: ws => integerText v ++ ',' :: programText (w :: ws)

/-! ## Load (rules R240 to R245) -/

/-- Why Load produces no instance. -/
inductive LoadRefusal where
  /-- A fatal condition at load time: `MalformedProgram` (rules R201, R242). -/
  | fatal (c : FatalCondition)
  /-- The width is not one the spec admits (rule R6; DESIGN CHOICE, safe; assumption log 8). -/
  | widthNotAdmitted
  /-- The input holds a value outside the cell range: the host's duty, outside the spec's model (rules R28, R256;
  DEDUCED, safe; assumption log 8). -/
  | inputOutsideModel
  deriving DecidableEq, Repr

/-- `LOAD(program_text, INPUT)`: the instance in its reset state, or no instance (rules R33, R240 to R245). It executes
nothing and checks nothing of the program but its text. There is no bound on the image (assumption log 9). -/
def load (cb : CellBits) (text : List Char) (input : Input) : Except LoadRefusal State :=
  if cb.admitted then
    match parseProgram cb text with
    | none => .error (.fatal .malformedProgram)
    | some image => if input.wf cb then .ok (State.ofImage cb image input) else .error .inputOutsideModel
  else .error .widthNotAdmitted

end Sys2Proof.Machine
end

