-- ==== Sys2Proof/Machine/Run.lean ====
section
/-! DEFINITION. The host's side of the engine: the response of a Step (rule R123), Run (rule R124), Outputs (rule R126),
the observation interface (rule R34), and several instances side by side (rules R31, R218). -/

namespace Sys2Proof.Machine

/-- What a Step or a Run answers (rule R123). -/
inductive Response where
  | continues
  | halted
  | fault (fcause : Nat) (finfo : Int)
  deriving DecidableEq, Repr

/-- The response of the Step that left this state; in a halted or faulted state, also of the next one (rules R111,
R112, R123). -/
def response (s : State) : Response :=
  match s.status with
  | .running => .continues
  | .halted => .halted
  | .faulted => .fault s.fcause s.finfo

/-- The state after one Step. A Step always answers a next state (rule R110), so the other two cases
do not occur. -/
def State.after (s : State) : State :=
  match step s with
  | .next t => t
  | .fault _ => s
  | .refused _ => s

/-- The request STEP: the response and the state after it (rule R33). -/
def stepRequest (s : State) : Response × State := (response s.after, s.after)

/-- Run under fuel: Step repeated until it responds other than `continues`, at most `fuel` times (rules R124, R125;
DEDUCED, safe; assumption log 16). -/
def runFuel : (fuel : Nat) → State → State
  | 0, s => s
  | fuel + 1, s =>
    match response s.after with
    | .continues => runFuel fuel s.after
    | .halted => s.after
    | .fault _ _ => s.after

/-- The run has ended: `status` is `HALTED` or `FAULTED` (rules R129, R255). -/
def State.ended (s : State) : Bool := s.status != .running

/-- Outputs: the output sequence as it stands (rule R126). -/
def outputs (s : State) : List Int := s.out

/-- `MEM[a]` as the host reads it between steps, for `a` in `[0, MEM_LEN-1]` (rule R34). -/
def observeCell (s : State) (a : Nat) : Option Int := s.mem[a]?

/-- The rest of what the host may read between steps (rule R34). -/
structure Observation where
  memLen : Nat
  ip : Nat
  status : Status
  fcause : Nat
  finfo : Int
  cur : Nat
  out : List Int
  deriving DecidableEq, Repr

/-- The observation interface; reading has no side effect (rule R34). -/
def observe (s : State) : Observation :=
  ⟨s.mem.length, s.ip, s.status, s.fcause, s.finfo, s.cur, s.out⟩

/-- Several instances share nothing: a Step of instance `k` changes instance `k` (rules R31, R218; DESIGN CHOICE, safe;
assumption log 15). -/
def stepInstance (k : Nat) (system : List State) : List State := system.modify k State.after

end Sys2Proof.Machine
end

