-- ==== Sys2Proof/Safety.lean ====
section
/-! DEFINITION. The terms claims are stated in, written out from the spec's words over the plain state and not through
the operations of Machine/: what a parameter delivers, which fatal condition resolving it meets, what a cell can hold;
and the invariant of the machine. -/

namespace Sys2Proof.Machine

/-! ## Values (rules R6, R22) -/

/-- A value of the cell range: `-2^(n-1) <= v <= 2^(n-1) - 1` for `n` bits, any integer for `INF` (rules R6, R22). -/
def FitsCell (cb : CellBits) (v : Int) : Prop :=
  match cb with
  | .bits n => -(2 : Int) ^ (n - 1) ≤ v ∧ v < (2 : Int) ^ (n - 1)
  | .inf => True

/-- A width the spec admits: 16 bits or more, or `INF` (rule R6). -/
def WidthAdmitted (cb : CellBits) : Prop :=
  match cb with
  | .bits n => 16 ≤ n
  | .inf => True

/-- A valid address: it lies in `[0, MEM_LEN-1]` (rule R51). -/
def ValidAddress (s : State) (a : Int) : Prop := 0 ≤ a ∧ a < (s.mem.length : Int)

/-! ## Parameters (rules R117 to R119) -/

/-- Reading parameter `n` of `i` delivers `v`: the parameter's cell exists, and in position mode it is the address of a
cell that holds `v`, in immediate mode it is `v` itself (rule R118). -/
def ParamReads (i : Instr) (s : State) (n : Nat) (v : Int) : Prop :=
  ∃ raw, s.mem[s.ip + n]? = some raw ∧
    ((i.modeDigit n = 0 ∧ 0 ≤ raw ∧ s.mem[raw.toNat]? = some v) ∨ (i.modeDigit n = 1 ∧ v = raw))

/-- Reading parameter `n` of `i` meets the fatal condition `c`: the parameter's cell is missing, or its mode digit is
2 or more, or it is a position operand that is no valid address (rules R117, R118). -/
def ParamFaults (i : Instr) (s : State) (n : Nat) (c : FatalCondition) : Prop :=
  (s.mem.length ≤ s.ip + n ∧ c = .memoryOutOfBounds ((s.ip + n : Nat) : Int)) ∨
  ∃ raw, s.mem[s.ip + n]? = some raw ∧
    ((2 ≤ i.modeDigit n ∧ c = .invalidParameterMode (encode i)) ∨
      (i.modeDigit n = 0 ∧ ¬ValidAddress s raw ∧ c = .memoryOutOfBounds raw))

/-- The destination of parameter `n` is the valid address `d` (rule R119). -/
def DestinationIs (s : State) (n : Nat) (d : Nat) : Prop :=
  s.mem[s.ip + n]? = some (d : Int) ∧ d < s.mem.length

/-- Resolving the destination of parameter `n` meets the fatal condition `c`: the parameter's cell is missing, or it is
no valid address (rules R117, R119). -/
def DestinationFaults (s : State) (n : Nat) (c : FatalCondition) : Prop :=
  (s.mem.length ≤ s.ip + n ∧ c = .memoryOutOfBounds ((s.ip + n : Nat) : Int)) ∨
  ∃ raw, s.mem[s.ip + n]? = some raw ∧ ¬ValidAddress s raw ∧ c = .memoryOutOfBounds raw

/-- The three parameters of a four-cell instruction resolve: operands `a` and `b`, destination `d` (rule R120). -/
def FourCellOperands (i : Instr) (s : State) (a b : Int) (d : Nat) : Prop :=
  ParamReads i s 1 a ∧ ParamReads i s 2 b ∧ DestinationIs s 3 d

/-- Resolving the parameters of a four-cell instruction in the order 1, 2, 3 meets `c` first (rules R120, R211). -/
def FourCellFaults (i : Instr) (s : State) (c : FatalCondition) : Prop :=
  ParamFaults i s 1 c ∨
  ∃ a, ParamReads i s 1 a ∧ (ParamFaults i s 2 c ∨ ∃ b, ParamReads i s 2 b ∧ DestinationFaults s 3 c)

/-- Completing `i` in `s` stores the value `v` at the address `d`: the destination is `d`, the other parameters resolve,
and `v` is the result the instruction's rule gives. OUT, JT, JF and HALT store nothing (rules R140, R141, R150, R170,
R171). -/
def Stores (i : Instr) (s : State) (d : Nat) (v : Int) : Prop :=
  match i with
  | .add _ => ∃ a b, FourCellOperands i s a b d ∧ v = a + b ∧ FitsCell s.cellBits v
  | .mul _ => ∃ a b, FourCellOperands i s a b d ∧ v = a * b ∧ FitsCell s.cellBits v
  | .inp _ => DestinationIs s 1 d ∧ s.input.valueAt s.cellBits s.cur = some v
  | .out _ => False
  | .jt _ => False
  | .jf _ => False
  | .lt _ => ∃ a b, FourCellOperands i s a b d ∧ ((a < b ∧ v = 1) ∨ (b ≤ a ∧ v = 0))
  | .eq _ => ∃ a b, FourCellOperands i s a b d ∧ ((a = b ∧ v = 1) ∨ (a ≠ b ∧ v = 0))
  | .halt _ => False

/-! ## Tokens of program text (rule R98) -/

/-- The value of a text of decimal digits, the most significant first. -/
def digitsTextValue (ds : List Char) : Nat := ds.foldl (fun n c => 10 * n + (c.toNat - 48)) 0

/-- The text `t` is a token of value `v`: spaces and tabs, an optional `-`, one or more decimal digits, spaces and tabs
(rule R98 steps 3 and 4). -/
def TokenIs (t : List Char) (v : Int) : Prop :=
  ∃ (before digits after : List Char) (minus : Bool),
    (∀ c ∈ before ++ after, c = ' ' ∨ c = '\t') ∧ digits ≠ [] ∧ (∀ c ∈ digits, 48 ≤ c.toNat ∧ c.toNat ≤ 57) ∧
    t = before ++ ((if minus then ['-'] else []) ++ digits) ++ after ∧
    v = if minus then -(digitsTextValue digits : Int) else (digitsTextValue digits : Int)

/-! ## Fault entry (rule R212) -/

/-- `s` after the fatal condition of this code and information: `status`, `fcause` and `finfo` are written and nothing
else (rule R212). -/
def Faulted (s : State) (code : Nat) (info : Int) : State :=
  { s with status := .faulted, fcause := code, finfo := info }

/-! ## The invariant -/

/-- What holds of every state of every run of a loaded instance. -/
structure State.Inv (s : State) : Prop where
  /-- The width is one the spec admits (rule R6). -/
  width : WidthAdmitted s.cellBits
  /-- Every cell holds a value of the cell range (rule R22). -/
  cells : ∀ v ∈ s.mem, FitsCell s.cellBits v
  /-- Every input value lies in the cell range (rules R22, R28). -/
  inputs : ∀ k v, s.input.valueAt s.cellBits k = some v → FitsCell s.cellBits v
  /-- Every output value lies in the cell range (rule R22). -/
  outputs : ∀ v ∈ s.out, FitsCell s.cellBits v
  /-- No more values are consumed than a finite input holds (rule R28). -/
  cursor : ∀ vs, s.input = .values vs → s.cur ≤ vs.length
  /-- Without a fault the fault record is 0, 0 (rule R27). -/
  noRecord : s.status ≠ .faulted → s.fcause = 0 ∧ s.finfo = 0
  /-- With a fault it is the code and the value of a fatal condition that a Step raises (rules R27, R200). -/
  record : s.status = .faulted → ∃ c : FatalCondition, c ≠ .malformedProgram ∧ s.fcause = c.code ∧ s.finfo = c.info

/-- A run from `s` is safe for `fuel` Steps: it meets no fatal condition (rule R200). -/
def State.RunsSafely (s : State) (fuel : Nat) : Prop := ∀ k ≤ fuel, (runFuel k s).status ≠ .faulted

end Sys2Proof.Machine
end

