-- ==== Sys2Proof/Certificates/Slice0/Obligations.lean ====
section
/-! DEFINITION. The statements for the provers. Each docstring names the rules of spec/ the statement formalises. The
statements are written over the plain state and the terms of Safety.lean; a statement that covers several instructions
names them. -/

open Sys2Proof Sys2Proof.Machine

/-! ## Encoding and decoding -/

/-- Decoding the word of any well-formed instruction gives the instruction back, whatever its mode digits
(rules R81, R82, R87). -/
def Obligations.DecodeInvertsEncode : Prop :=
  ∀ i : Instr, i.wellFormed = true → decode (encode i : Int) = .ok i

/-- A cell that decodes to an instruction is that instruction's word, and the instruction is well formed
(rules R82, R87; test obligation T1 of 95_test_vectors.md). -/
def Obligations.EncodeInvertsDecode : Prop :=
  ∀ (w : Int) (i : Instr), decode w = .ok i → (encode i : Int) = w ∧ i.wellFormed = true

/-- Rule R82: the opcode is the word modulo 100; the list of mode digits has one element for each decimal digit of the
word divided by 100, element `i` being the digit of weight `10^(i+2)`; it is empty below 100 and never ends in 0; and
the rule's five examples. -/
def Obligations.DecoderReturnsOpcodeAndDigits : Prop :=
  (∀ w : Nat,
    (decodeWord w).opcode = w % 100 ∧
    (∀ k, k < (decodeWord w).modes.length → (decodeWord w).modes[k]? = some (w / 10 ^ (k + 2) % 10)) ∧
    w / 100 < 10 ^ (decodeWord w).modes.length ∧
    (w < 100 → (decodeWord w).modes = []) ∧
    (100 ≤ w → 10 ^ ((decodeWord w).modes.length - 1) ≤ w / 100 ∧ 0 < (decodeWord w).modes.length) ∧
    (decodeWord w).modes.getLast? ≠ some 0) ∧
  decodeWord 1002 = ⟨2, [0, 1]⟩ ∧ decodeWord 99 = ⟨99, []⟩ ∧ decodeWord 104 = ⟨4, [1]⟩ ∧
  decodeWord 10001 = ⟨1, [0, 0, 1]⟩ ∧ decodeWord 225 = ⟨25, [2]⟩

/-- The mode accessor gives the element at position `k` where the list has one and 0 elsewhere (rule R83), which is the
digit of weight `10^(k+2)` of the word (the sentence of rule R83 that the spec marks as derived from rule R82). -/
def Obligations.ModeAccessorIsTheDigit : Prop :=
  ∀ w k : Nat,
    (k < (decodeWord w).modes.length → (decodeWord w).modes[k]? = some (modeAt (decodeWord w).modes k)) ∧
    ((decodeWord w).modes.length ≤ k → modeAt (decodeWord w).modes k = 0) ∧
    modeAt (decodeWord w).modes k = w / 10 ^ (k + 2) % 10

/-- The outputs of the decoder block: an opcode of at most 99, three decimal digits equal to the mode digits of the
three parameters, and the whole list (rule R96). -/
def Obligations.DecoderBlockPorts : Prop :=
  ∀ w : Nat,
    (decoderBlock w).opcode = w % 100 ∧ (decoderBlock w).opcode ≤ 99 ∧
    (decoderBlock w).m1 = w / 100 % 10 ∧ (decoderBlock w).m2 = w / 1000 % 10 ∧ (decoderBlock w).m3 = w / 10000 % 10 ∧
    (decoderBlock w).m1 ≤ 9 ∧ (decoderBlock w).m2 ≤ 9 ∧ (decoderBlock w).m3 ≤ 9 ∧
    (decoderBlock w).modes = (decodeWord w).modes

/-- Rule R88: the length is `1 + arity` and depends on the word modulo 100 alone: 4 for opcodes 1, 2, 7, 8; 2 for 3, 4;
3 for 5, 6; 1 for 99; and it is the amount the pointer advances, but for a taken jump and for HALT. -/
def Obligations.LengthDependsOnOpcodeAlone : Prop :=
  ∀ (w : Nat) (i : Instr), decode (w : Int) = .ok i →
    i.length = 1 + i.arity ∧
    (w % 100 = 1 ∨ w % 100 = 2 ∨ w % 100 = 7 ∨ w % 100 = 8 → i.length = 4) ∧
    (w % 100 = 3 ∨ w % 100 = 4 → i.length = 2) ∧
    (w % 100 = 5 ∨ w % 100 = 6 → i.length = 3) ∧
    (w % 100 = 99 → i.length = 1) ∧
    (∀ s t, s.status = .running → exec i s = .next t → t.status = .running →
      t.ip = s.ip + i.length ∨
        ∃ a, ParamReads i s 1 a ∧ ((w % 100 = 5 ∧ a ≠ 0) ∨ (w % 100 = 6 ∧ a = 0)))

/-- Words written out from the formats of rule R89 and the vectors D1 to D21 of 95_test_vectors.md decode to the
instructions they stand for, one or more of each family; words of illegal opcodes do not. That a negative cell is
rejected by name is the model's choice (assumption log 18): `decode` makes the sign check of rule R114 first, and rule
R85 leaves the spec's decoder undefined there. -/
def Obligations.WordsDecodeToTheirInstructions : Prop :=
  decode 1101 = .ok (.add [1, 1]) ∧ decode 11101 = .ok (.add [1, 1, 1]) ∧ decode 1002 = .ok (.mul [0, 1]) ∧
  decode 3 = .ok (.inp []) ∧ decode 104 = .ok (.out [1]) ∧ decode 1005 = .ok (.jt [0, 1]) ∧
  decode 106 = .ok (.jf [1]) ∧ decode 2107 = .ok (.lt [1, 2]) ∧ decode 8 = .ok (.eq []) ∧
  decode 1000099 = .ok (.halt [0, 0, 0, 0, 1]) ∧
  decode 225 = .error (.unknownOpcode 25) ∧ decode 9900 = .error (.unknownOpcode 0) ∧
  decode (-1) = .error (.negativeOperationCode (-1))

/-- A listing line of an instruction stands for as many cells as the instruction is long; its first cell decodes to an
instruction of the line's opcode, with mode digit 1 for a read operand written `#v` and 0 for one written `[a]` and for
a destination; and the cells that follow are the operands in order (rules R101, R102). -/
def Obligations.ListingLinesEncodeTheirInstruction : Prop :=
  ∀ (x y : ReadOperand) (d : Int),
    (∀ line opcode, (line, opcode) ∈ [(ListingLine.add x y d, 1), (.mul x y d, 2), (.lt x y d, 7), (.eq x y d, 8)] →
      ∃ w i, line.cells = [w, x.cell, y.cell, d] ∧ decode w = .ok i ∧ i.opcode = opcode ∧ i.length = 4 ∧
        i.modeDigit 1 = x.modeDigit ∧ i.modeDigit 2 = y.modeDigit ∧ i.modeDigit 3 = 0) ∧
    (∀ line opcode, (line, opcode) ∈ [(ListingLine.jt x y, 5), (.jf x y, 6)] →
      ∃ w i, line.cells = [w, x.cell, y.cell] ∧ decode w = .ok i ∧ i.opcode = opcode ∧ i.length = 3 ∧
        i.modeDigit 1 = x.modeDigit ∧ i.modeDigit 2 = y.modeDigit) ∧
    (∃ w i, (ListingLine.out x).cells = [w, x.cell] ∧ decode w = .ok i ∧ i.opcode = 4 ∧ i.length = 2 ∧
      i.modeDigit 1 = x.modeDigit) ∧
    (∃ w i, (ListingLine.inp d).cells = [w, d] ∧ decode w = .ok i ∧ i.opcode = 3 ∧ i.length = 2 ∧ i.modeDigit 1 = 0) ∧
    (∃ w i, ListingLine.halt.cells = [w] ∧ decode w = .ok i ∧ i.opcode = 99 ∧ i.length = 1)

/-! ## Memory and operands -/

/-- Rule R52: a read outside `[0, MEM_LEN-1]` raises `MemoryOutOfBounds` with the address, a read inside gives the
cell. -/
def Obligations.MemReadIsBounded : Prop :=
  ∀ (mem : List Int) (a : Int),
    (a < 0 ∨ (mem.length : Int) ≤ a → memRead mem a = .error (.memoryOutOfBounds a)) ∧
    (∀ (k : Nat) (h : k < mem.length), a = (k : Int) → memRead mem a = .ok mem[k])

/-- Rule R53: a write outside `[0, MEM_LEN-1]` raises `MemoryOutOfBounds` with the address; a write inside sets that
cell and no other; and the write to an address that `Dst(N)` has answered never raises. -/
def Obligations.MemWriteSetsOneCell : Prop :=
  ∀ (mem : List Int) (a v : Int),
    (a < 0 ∨ (mem.length : Int) ≤ a → memWrite mem a v = .error (.memoryOutOfBounds a)) ∧
    (∀ k : Nat, k < mem.length → a = (k : Int) → ∃ mem', memWrite mem a v = .ok mem' ∧
      mem'.length = mem.length ∧ mem'[k]? = some v ∧ ∀ j, j ≠ k → mem'[j]? = mem[j]?) ∧
    (∀ (s : State) (n : Nat) (d : Int), dstParam n s = .ok d → ∃ mem', memWrite s.mem d v = .ok mem')

/-- Rule R117: `Raw(N)` raises `MemoryOutOfBounds(ip + N)` when `ip + N >= MEM_LEN` and otherwise returns the cell
`MEM[ip + N]`. -/
def Obligations.RawFetchesTheParameterCell : Prop :=
  ∀ (n : Nat) (s : State),
    (s.mem.length ≤ s.ip + n → rawParam n s = .error (.memoryOutOfBounds ((s.ip + n : Nat) : Int))) ∧
    (∀ h : s.ip + n < s.mem.length, rawParam n s = .ok s.mem[s.ip + n])

/-- Rule R118: `Read(N)` delivers the cell at the operand in position mode and the operand itself in immediate mode,
once each parameter cell is there; and it raises the first of: a missing parameter cell, a mode digit of 2 or more, a
position operand that is no valid address. -/
def Obligations.ReadAppliesTheMode : Prop :=
  ∀ (i : Instr) (n : Nat) (s : State),
    (∀ v, ParamReads i s n v → readParam i n s = .ok v) ∧
    (∀ c, ParamFaults i s n c → readParam i n s = .error c) ∧
    ((∃ v, ParamReads i s n v) ∨ ∃ c, ParamFaults i s n c)

/-- Rule R119: `Dst(N)` is the operand itself, whatever its mode digit, and raises for a missing parameter cell or an
operand that is no valid address; it does not read the cell it names. -/
def Obligations.DestinationIsTheOperand : Prop :=
  ∀ (n : Nat) (s : State),
    (∀ d : Nat, DestinationIs s n d → dstParam n s = .ok (d : Int)) ∧
    (∀ c, DestinationFaults s n c → dstParam n s = .error c) ∧
    ((∃ d, DestinationIs s n d) ∨ ∃ c, DestinationFaults s n c)

/-- Rule R152: the pull gives `INPUT[cur]` and advances `cur` by 1, and nothing else; a finite sequence of which `cur`
values are consumed is exhausted, and an infinite one never is: it gives its value number `cur` (which value that is, is
free: assumption log 3). -/
def Obligations.InputPullTakesTheNextValue : Prop :=
  ∀ s : State,
    (∀ vs v, s.input = .values vs → vs[s.cur]? = some v → inNext s = .ok (v, { s with cur := s.cur + 1 })) ∧
    (∀ vs, s.input = .values vs → vs.length ≤ s.cur → inNext s = .error .inputExhaustion) ∧
    (∀ n, s.input = .source n →
      s.input.valueAt s.cellBits s.cur = some (sourceValue s.cellBits n s.cur) ∧
      inNext s = .ok (sourceValue s.cellBits n s.cur, { s with cur := s.cur + 1 }))

/-! ## The nine instructions: effect, completion and fatal conditions -/

/-- Rule R140, ADD: when its parameters resolve to operands `a`, `b` and destination `d` and the exact sum fits a cell,
it completes: cell `d` holds `a + b`, the pointer moves by 4, nothing else changes. A sum that does not fit raises
`ArithmeticOverflow`; a parameter that does not resolve raises the first fatal condition met. The word's opcode is 1,
and the source's example holds. -/
def Obligations.AddStoresTheExactSum : Prop :=
  (∀ (modes : ModeDigits) (s : State),
    (∀ a b d, FourCellOperands (.add modes) s a b d → FitsCell s.cellBits (a + b) →
      exec (.add modes) s = .next { s with mem := s.mem.set d (a + b), ip := s.ip + 4 }) ∧
    (∀ a b d, FourCellOperands (.add modes) s a b d → ¬FitsCell s.cellBits (a + b) →
      exec (.add modes) s = .next (Faulted s 9 0)) ∧
    (∀ c, FourCellFaults (.add modes) s c → exec (.add modes) s = .next (Faulted s c.code c.info)) ∧
    encode (.add modes) % 100 = 1) ∧
  step (State.ofImage (.bits 64) [1, 0, 0, 0, 99] (.values [])) =
    .next { State.ofImage (.bits 64) [2, 0, 0, 0, 99] (.values []) with ip := 4 }

/-- Rule R141, MUL: as ADD with the exact product; the source's example holds. -/
def Obligations.MulStoresTheExactProduct : Prop :=
  (∀ (modes : ModeDigits) (s : State),
    (∀ a b d, FourCellOperands (.mul modes) s a b d → FitsCell s.cellBits (a * b) →
      exec (.mul modes) s = .next { s with mem := s.mem.set d (a * b), ip := s.ip + 4 }) ∧
    (∀ a b d, FourCellOperands (.mul modes) s a b d → ¬FitsCell s.cellBits (a * b) →
      exec (.mul modes) s = .next (Faulted s 9 0)) ∧
    (∀ c, FourCellFaults (.mul modes) s c → exec (.mul modes) s = .next (Faulted s c.code c.info)) ∧
    encode (.mul modes) % 100 = 2) ∧
  step (State.ofImage (.bits 64) [2, 3, 0, 3, 99] (.values [])) =
    .next { State.ofImage (.bits 64) [2, 3, 0, 6, 99] (.values []) with ip := 4 }

/-- Rule R150, IN: when its destination `d` resolves and a value `v` remains, it completes: cell `d` holds `v`, `cur`
moves by 1, the pointer by 2, nothing else changes. A destination that does not resolve is met first and consumes no
value; with no value remaining it raises `InputExhaustion`. The word's opcode is 3. -/
def Obligations.InStoresTheNextInput : Prop :=
  ∀ (modes : ModeDigits) (s : State),
    (∀ d v, DestinationIs s 1 d → s.input.valueAt s.cellBits s.cur = some v →
      exec (.inp modes) s = .next { s with mem := s.mem.set d v, cur := s.cur + 1, ip := s.ip + 2 }) ∧
    (∀ d, DestinationIs s 1 d → s.input.valueAt s.cellBits s.cur = none →
      exec (.inp modes) s = .next (Faulted s 6 0)) ∧
    (∀ c, DestinationFaults s 1 c → exec (.inp modes) s = .next (Faulted s c.code c.info)) ∧
    encode (.inp modes) % 100 = 3

/-- Rule R151, OUT: when parameter 1 delivers `a`, it completes: `a` is appended to the output, the pointer moves by 2,
nothing else changes, memory least of all. The word's opcode is 4. -/
def Obligations.OutAppendsTheOperand : Prop :=
  ∀ (modes : ModeDigits) (s : State),
    (∀ a, ParamReads (.out modes) s 1 a →
      exec (.out modes) s = .next { s with out := s.out ++ [a], ip := s.ip + 2 }) ∧
    (∀ c, ParamFaults (.out modes) s 1 c → exec (.out modes) s = .next (Faulted s c.code c.info)) ∧
    encode (.out modes) % 100 = 4

/-- Rule R160, JT: when parameter 1 delivers a value other than 0 and parameter 2 a target that is not negative, the
pointer becomes the target; when parameter 1 delivers 0, the pointer moves by 3 and parameter 2 is not resolved; in both
cases nothing else changes. A negative target, or a parameter that is resolved and does not resolve, raises. The word's
opcode is 5. -/
def Obligations.JtJumpsOnNonZero : Prop :=
  ∀ (modes : ModeDigits) (s : State),
    (∀ a (t : Nat), ParamReads (.jt modes) s 1 a → a ≠ 0 → ParamReads (.jt modes) s 2 (t : Int) →
      exec (.jt modes) s = .next { s with ip := t }) ∧
    (ParamReads (.jt modes) s 1 0 → exec (.jt modes) s = .next { s with ip := s.ip + 3 }) ∧
    (∀ c, ParamFaults (.jt modes) s 1 c → exec (.jt modes) s = .next (Faulted s c.code c.info)) ∧
    (∀ a c, ParamReads (.jt modes) s 1 a → a ≠ 0 → ParamFaults (.jt modes) s 2 c →
      exec (.jt modes) s = .next (Faulted s c.code c.info)) ∧
    (∀ a t, ParamReads (.jt modes) s 1 a → a ≠ 0 → ParamReads (.jt modes) s 2 t → t < 0 →
      exec (.jt modes) s = .next (Faulted s 5 t)) ∧
    encode (.jt modes) % 100 = 5

/-- Rule R161, JF: as JT with the condition inverted; the word's opcode is 6. -/
def Obligations.JfJumpsOnZero : Prop :=
  ∀ (modes : ModeDigits) (s : State),
    (∀ t : Nat, ParamReads (.jf modes) s 1 0 → ParamReads (.jf modes) s 2 (t : Int) →
      exec (.jf modes) s = .next { s with ip := t }) ∧
    (∀ a, ParamReads (.jf modes) s 1 a → a ≠ 0 → exec (.jf modes) s = .next { s with ip := s.ip + 3 }) ∧
    (∀ c, ParamFaults (.jf modes) s 1 c → exec (.jf modes) s = .next (Faulted s c.code c.info)) ∧
    (∀ c, ParamReads (.jf modes) s 1 0 → ParamFaults (.jf modes) s 2 c →
      exec (.jf modes) s = .next (Faulted s c.code c.info)) ∧
    (∀ t, ParamReads (.jf modes) s 1 0 → ParamReads (.jf modes) s 2 t → t < 0 →
      exec (.jf modes) s = .next (Faulted s 5 t)) ∧
    encode (.jf modes) % 100 = 6

/-- Rule R170, LT: when its parameters resolve, it completes: cell `d` holds 1 if `a < b` as signed values and 0
otherwise, the pointer moves by 4, nothing else changes, and nothing overflows. A parameter that does not resolve raises
the first fatal condition met. The word's opcode is 7. -/
def Obligations.LtStoresOneOrZero : Prop :=
  ∀ (modes : ModeDigits) (s : State),
    (∀ a b d, FourCellOperands (.lt modes) s a b d → a < b →
      exec (.lt modes) s = .next { s with mem := s.mem.set d 1, ip := s.ip + 4 }) ∧
    (∀ a b d, FourCellOperands (.lt modes) s a b d → b ≤ a →
      exec (.lt modes) s = .next { s with mem := s.mem.set d 0, ip := s.ip + 4 }) ∧
    (∀ c, FourCellFaults (.lt modes) s c → exec (.lt modes) s = .next (Faulted s c.code c.info)) ∧
    encode (.lt modes) % 100 = 7

/-- Rule R171, EQ: as LT with equality of the integer values; the word's opcode is 8. -/
def Obligations.EqStoresOneOrZero : Prop :=
  ∀ (modes : ModeDigits) (s : State),
    (∀ a d, FourCellOperands (.eq modes) s a a d →
      exec (.eq modes) s = .next { s with mem := s.mem.set d 1, ip := s.ip + 4 }) ∧
    (∀ a b d, FourCellOperands (.eq modes) s a b d → a ≠ b →
      exec (.eq modes) s = .next { s with mem := s.mem.set d 0, ip := s.ip + 4 }) ∧
    (∀ c, FourCellFaults (.eq modes) s c → exec (.eq modes) s = .next (Faulted s c.code c.info)) ∧
    encode (.eq modes) % 100 = 8

/-- Rule R180, HALT: in every state it completes: `status` becomes `HALTED` and nothing else changes, the pointer
included; no mode digit matters; the Step that executes it responds `halted`, and so does every further one, which
changes nothing. The word's opcode is 99. -/
def Obligations.HaltStopsTheEngine : Prop :=
  ∀ (modes : ModeDigits) (s : State),
    exec (.halt modes) s = .next { s with status := .halted } ∧
    encode (.halt modes) % 100 = 99 ∧
    (∀ w, s.status = .running → s.mem[s.ip]? = some w → decode w = .ok (.halt modes) →
      stepRequest s = (.halted, { s with status := .halted })) ∧
    stepRequest { s with status := .halted } = (.halted, { s with status := .halted })

/-- Rule R142: a result of ADD or MUL that does not fit the cell raises `ArithmeticOverflow` and writes nothing; it
never wraps, saturates or truncates: a cell the instruction writes holds the exact result; and with `CELL_BITS = INF`
the condition is never met. -/
def Obligations.ArithmeticNeverWraps : Prop :=
  ∀ (modes : ModeDigits) (s : State) (i : Instr) (a b r : Int) (d : Nat),
    (i = .add modes ∧ r = a + b) ∨ (i = .mul modes ∧ r = a * b) →
    FourCellOperands i s a b d →
    (¬FitsCell s.cellBits r → exec i s = .next (Faulted s 9 0)) ∧
    (s.cellBits = .inf → exec i s = .next { s with mem := s.mem.set d r, ip := s.ip + 4 }) ∧
    (∀ t, exec i s = .next t → t.mem ≠ s.mem → t.mem[d]? = some r ∧ FitsCell s.cellBits r)

/-- Rule R162: a taken jump sets the pointer to the value of parameter 2 exactly, whatever memory's length; only its
sign is checked: a negative one raises `NegativeJumpTarget`. The Step that jumps responds `continues`. Where the target
is `MEM_LEN` or more, the next Step raises `InvalidInstructionPointer`; where it is an address, the next Step decodes
the cell there, whatever else it is. JT and JF. -/
def Obligations.JumpTargetIsCheckedAtTheFetch : Prop :=
  ∀ (modes : ModeDigits) (s : State) (i : Instr) (a t : Int),
    (i = .jt modes ∧ a ≠ 0) ∨ (i = .jf modes ∧ a = 0) →
    ParamReads i s 1 a → ParamReads i s 2 t →
    (t < 0 → exec i s = .next (Faulted s 5 t)) ∧
    (∀ n : Nat, t = (n : Int) →
      exec i s = .next { s with ip := n } ∧
      (s.status = .running →
        response { s with ip := n } = .continues ∧
        (s.mem.length ≤ n → step { s with ip := n } = .next (Faulted { s with ip := n } 2 (n : Int))) ∧
        (∀ w j, s.mem[n]? = some w → decode w = .ok j → step { s with ip := n } = exec j { s with ip := n })))

/-- Rule R163: on the path not taken neither the second parameter's cell nor anything it points at is accessed: the
jump completes whatever it is, and also where it is missing. JT and JF; and the rule's two images. -/
def Obligations.UntakenJumpIgnoresItsTarget : Prop :=
  (∀ (modes : ModeDigits) (s : State) (i : Instr) (a : Int),
    (i = .jt modes ∧ a = 0) ∨ (i = .jf modes ∧ a ≠ 0) →
    ParamReads i s 1 a → exec i s = .next { s with ip := s.ip + 3 }) ∧
  step (State.ofImage (.bits 64) [1105, 0] (.values [])) =
    .next { State.ofImage (.bits 64) [1105, 0] (.values []) with ip := 3 } ∧
  step { State.ofImage (.bits 64) [1105, 0] (.values []) with ip := 3 } =
    .next (Faulted { State.ofImage (.bits 64) [1105, 0] (.values []) with ip := 3 } 2 3) ∧
  step (State.ofImage (.bits 64) [1105, 1] (.values [])) =
    .next (Faulted (State.ofImage (.bits 64) [1105, 1] (.values [])) 7 2)

/-- Mode digits that are not consulted make no difference: any on IN and HALT; all but the first on OUT; all but the
first two on ADD, MUL, LT, EQ, JT and JF (rule R94). The digits that are consulted are taken to be modes, 0 or 1,
because `InvalidParameterMode` records the whole word. -/
def Obligations.UnconsultedDigitsAreIgnored : Prop :=
  ∀ (m m' : ModeDigits) (s : State),
    exec (.inp m) s = exec (.inp m') s ∧
    exec (.halt m) s = exec (.halt m') s ∧
    (modeAt m 0 ≤ 1 → modeAt m' 0 = modeAt m 0 → exec (.out m) s = exec (.out m') s) ∧
    (modeAt m 0 ≤ 1 → modeAt m' 0 = modeAt m 0 → modeAt m 1 ≤ 1 → modeAt m' 1 = modeAt m 1 →
      exec (.add m) s = exec (.add m') s ∧ exec (.mul m) s = exec (.mul m') s ∧
      exec (.lt m) s = exec (.lt m') s ∧ exec (.eq m) s = exec (.eq m') s ∧
      exec (.jt m) s = exec (.jt m') s ∧ exec (.jf m) s = exec (.jf m') s)

/-- The worked examples that the spec gives with the instructions and marks as derived from their rules (rules R141,
R150, R151, R160, R161, R170, R171, R180), each run as far as the spec tells it. -/
def Obligations.WorkedExamplesRun : Prop :=
  step (State.ofImage (.bits 64) [1002, 4, 3, 4, 33] (.values [])) =
    .next { State.ofImage (.bits 64) [1002, 4, 3, 4, 99] (.values []) with ip := 4 } ∧
  runFuel 2 (State.ofImage (.bits 64) [3, 0, 99] (.values [42])) =
    { State.ofImage (.bits 64) [42, 0, 99] (.values [42]) with cur := 1, ip := 2, status := .halted } ∧
  runFuel 2 (State.ofImage (.bits 64) [3, 2, 0] (.values [99])) =
    { State.ofImage (.bits 64) [3, 2, 99] (.values [99]) with cur := 1, ip := 2, status := .halted } ∧
  step (State.ofImage (.bits 64) [104, -5, 99] (.values [])) =
    .next { State.ofImage (.bits 64) [104, -5, 99] (.values []) with out := [-5], ip := 2 } ∧
  step (State.ofImage (.bits 64) [4, 2, 99] (.values [])) =
    .next { State.ofImage (.bits 64) [4, 2, 99] (.values []) with out := [99], ip := 2 } ∧
  (∀ w a, (w, a) ∈ [((1105 : Int), (5 : Int)), (1106, 0)] →
    runFuel 3 (State.ofImage (.bits 64) [w, a, 4, 99, 104, 1, 99] (.values [])) =
      { State.ofImage (.bits 64) [w, a, 4, 99, 104, 1, 99] (.values []) with
        ip := 6, out := [1], status := .halted }) ∧
  (∀ w a, (w, a) ∈ [((1105 : Int), (0 : Int)), (1106, 2)] →
    runFuel 2 (State.ofImage (.bits 64) [w, a, 4, 99, 104, 1, 99] (.values [])) =
      { State.ofImage (.bits 64) [w, a, 4, 99, 104, 1, 99] (.values []) with ip := 3, status := .halted }) ∧
  step (State.ofImage (.bits 64) [1106, 0, -1, 99] (.values [])) =
    .next (Faulted (State.ofImage (.bits 64) [1106, 0, -1, 99] (.values [])) 5 (-1)) ∧
  (∀ a r, (a, r) ∈ [((3 : Int), (1 : Int)), (4, 0), (5, 0), (-5, 1)] →
    step (State.ofImage (.bits 64) [1107, a, 4, 0, 99] (.values [])) =
      .next { State.ofImage (.bits 64) [r, a, 4, 0, 99] (.values []) with ip := 4 }) ∧
  (∀ b r, (b, r) ∈ [((4 : Int), (1 : Int)), (-4, 0)] →
    step (State.ofImage (.bits 64) [1108, 4, b, 0, 99] (.values [])) =
      .next { State.ofImage (.bits 64) [r, 4, b, 0, 99] (.values []) with ip := 4 }) ∧
  step (State.ofImage (.bits 64) [8, 1, 1, 2, 99] (.values [])) =
    .next { State.ofImage (.bits 64) [8, 1, 1, 2, 99] (.values []) with ip := 4 } ∧
  step (State.ofImage (.bits 64) [99] (.values [])) =
    .next { State.ofImage (.bits 64) [99] (.values []) with status := .halted }

/-! ## Frames -/

/-- The frame of the storing instructions, ADD, MUL, LT and EQ (destination: parameter 3) and IN (destination:
parameter 1). Every cell but the one at the address `Dst(N)` gives reads as before, and every cell does where `Dst(N)`
raises; memory keeps its length; the width, the input sequence and the output are unchanged; `cur` is unchanged but for
IN; and `status`, `fcause` and `finfo` are unchanged unless the instruction raised a fatal condition, and then nothing
else is changed (rules R53, R119, R122). -/
def Obligations.FrameOfStoringInstructions : Prop :=
  ∀ (i : Instr) (n : Nat) (modes : ModeDigits) (s t : State),
    (i, n) ∈ [(.add modes, 3), (.mul modes, 3), (.lt modes, 3), (.eq modes, 3), (.inp modes, 1)] →
    exec i s = .next t →
    (∀ d, dstParam n s = .ok d → ∀ a : Nat, (a : Int) ≠ d → t.mem[a]? = s.mem[a]?) ∧
    (∀ c, dstParam n s = .error c → ∀ a : Nat, t.mem[a]? = s.mem[a]?) ∧
    t.mem.length = s.mem.length ∧ t.cellBits = s.cellBits ∧ t.input = s.input ∧ t.out = s.out ∧
    (i ≠ .inp modes → t.cur = s.cur) ∧
    ((t.status = s.status ∧ t.fcause = s.fcause ∧ t.finfo = s.finfo) ∨
      ∃ c : FatalCondition, t = Faulted s c.code c.info)

/-- The frame of OUT: every cell of memory reads as before; only the output, by one value at its end, and the pointer
change; and `status`, `fcause` and `finfo` change, and nothing else, where it raised a fatal condition
(rules R122, R151). -/
def Obligations.FrameOfOut : Prop :=
  ∀ (modes : ModeDigits) (s t : State), exec (.out modes) s = .next t →
    (∀ a : Nat, t.mem[a]? = s.mem[a]?) ∧ t.cellBits = s.cellBits ∧ t.input = s.input ∧ t.cur = s.cur ∧
    (((∃ v, t.out = s.out ++ [v]) ∧ t.status = s.status ∧ t.fcause = s.fcause ∧ t.finfo = s.finfo) ∨
      ∃ c : FatalCondition, t = Faulted s c.code c.info)

/-- The frame of JT and JF: nothing but the pointer changes, or `status`, `fcause` and `finfo` where it raised a fatal
condition; every cell of memory reads as before (rules R122, R160). -/
def Obligations.FrameOfJumps : Prop :=
  ∀ (modes : ModeDigits) (s t : State), exec (.jt modes) s = .next t ∨ exec (.jf modes) s = .next t →
    (∀ a : Nat, t.mem[a]? = s.mem[a]?) ∧
    ((∃ p, t = { s with ip := p }) ∨ ∃ c : FatalCondition, t = Faulted s c.code c.info)

/-- The frame of HALT: nothing but `status` changes; every cell of memory reads as before (rules R122, R180). -/
def Obligations.FrameOfHalt : Prop :=
  ∀ (modes : ModeDigits) (s t : State), exec (.halt modes) s = .next t →
    (∀ a : Nat, t.mem[a]? = s.mem[a]?) ∧ t.cellBits = s.cellBits ∧ t.ip = s.ip ∧ t.input = s.input ∧
    t.cur = s.cur ∧ t.out = s.out ∧ t.fcause = s.fcause ∧ t.finfo = s.finfo

/-! ## The Step -/

/-- When the engine runs and the cell at the pointer decodes to an instruction, Step is the execution of that
instruction at that state, and adds nothing to it (rules R110, R113 to R116). -/
def Obligations.StepRunsTheDecodedInstruction : Prop :=
  ∀ (s : State) (w : Int) (i : Instr),
    s.status = .running → s.mem[s.ip]? = some w → decode w = .ok i → step s = exec i s

/-- Every Step and every instruction answers a next state: the engine executes one instruction, or enters one fatal
condition, or, having ended, does nothing; it is never without a successor (rules R110, R128, R212). -/
def Obligations.StepAlwaysAnswersNext : Prop :=
  (∀ s : State, ∃ t, step s = .next t) ∧ ∀ (i : Instr) (s : State), ∃ t, exec i s = .next t

/-- Rules R111 and R112: Step in `HALTED` changes nothing and responds `halted`; Step in `FAULTED` changes nothing and
responds `fault` with the recorded values. -/
def Obligations.EndedStepDoesNothing : Prop :=
  ∀ s : State,
    (s.status = .halted → step s = .next s ∧ stepRequest s = (.halted, s)) ∧
    (s.status = .faulted → step s = .next s ∧ stepRequest s = (.fault s.fcause s.finfo, s))

/-- Rule R202: a running engine whose pointer is `MEM_LEN` or more raises `InvalidInstructionPointer` with the pointer,
and nothing but the fault record changes. -/
def Obligations.PointerOutsideMemoryFaults : Prop :=
  ∀ s : State, s.status = .running → s.mem.length ≤ s.ip → step s = .next (Faulted s 2 (s.ip : Int))

/-- Rule R203: a running engine whose word is negative raises `NegativeOperationCode` with the word. -/
def Obligations.NegativeWordFaults : Prop :=
  ∀ (s : State) (w : Int), s.status = .running → s.mem[s.ip]? = some w → w < 0 → step s = .next (Faulted s 3 w)

/-- Rules R91 and R204: every opcode outside 1 to 8 and 99, that is 0 and 9 to 98, is illegal: a running engine whose
word has it raises `UnknownOpcode` with the two-digit opcode, whatever the mode digits, and whatever follows the word;
the rule's six examples have such an opcode. -/
def Obligations.IllegalOpcodeFaults : Prop :=
  (∀ (s : State) (w : Nat), s.status = .running → s.mem[s.ip]? = some (w : Int) →
    w % 100 = 0 ∨ (9 ≤ w % 100 ∧ w % 100 ≤ 98) → step s = .next (Faulted s 4 ((w % 100 : Nat) : Int))) ∧
  (∀ w : Nat, ¬(w % 100 = 0 ∨ (9 ≤ w % 100 ∧ w % 100 ≤ 98)) → ∃ i, decode (w : Int) = .ok i) ∧
  (∀ p ∈ [(0, 0), (9, 9), (100, 0), (109, 9), (225, 25), (9900, 0)],
    decode ((p.1 : Nat) : Int) = .error (.unknownOpcode p.2))

/-- A parameter that an instruction reads, whose cell exists and whose mode digit is 2 or more, raises
`InvalidParameterMode` with the instruction word (rules R93, R208): ADD, MUL, LT, EQ, JT, JF and OUT on parameter 1; on
parameter 2, where parameter 1 delivers a value, ADD, MUL, LT and EQ, and JT and JF when they are taken. IN and HALT
never raise it. -/
def Obligations.InvalidModeDigitFaults : Prop :=
  ∀ (modes : ModeDigits) (s : State) (raw : Int),
    (∀ i, i ∈ [Instr.add modes, .mul modes, .lt modes, .eq modes, .jt modes, .jf modes, .out modes] →
      s.mem[s.ip + 1]? = some raw → 2 ≤ modeAt modes 0 →
      exec i s = .next (Faulted s 8 ((encode i : Nat) : Int))) ∧
    (∀ i a, i ∈ [Instr.add modes, .mul modes, .lt modes, .eq modes] ∨ (i = .jt modes ∧ a ≠ 0) ∨
        (i = .jf modes ∧ a = 0) →
      ParamReads i s 1 a → s.mem[s.ip + 2]? = some raw → 2 ≤ modeAt modes 1 →
      exec i s = .next (Faulted s 8 ((encode i : Nat) : Int))) ∧
    (∀ i t, i ∈ [Instr.inp modes, .halt modes] → s.status = .running → exec i s = .next t →
      ¬(t.status = .faulted ∧ t.fcause = 8))

/-- Rule R212: fault entry writes `status`, `fcause` and `finfo`, changes nothing else, and is answered as
`fault(fcause, finfo)`; and whenever a Step of a running engine ends in `FAULTED` it has done exactly this, from the
state before the Step, for a fatal condition that a Step can raise. -/
def Obligations.FaultEntryWritesOnlyTheRecord : Prop :=
  (∀ (s : State) (c : FatalCondition),
    raiseFatal c s = Faulted s c.code c.info ∧ response (raiseFatal c s) = .fault c.code c.info) ∧
  ∀ s t : State, s.status = .running → step s = .next t → t.status = .faulted →
    ∃ c : FatalCondition, c ≠ .malformedProgram ∧ t = Faulted s c.code c.info ∧
      stepRequest s = (.fault c.code c.info, t)

/-- Rule R121: the pointer after an instruction of a running engine. Where the instruction completed: 4 further for
ADD, MUL, LT and EQ; 2 further for IN and OUT; 3 further for JT and JF not taken, and the target where taken; the same
for HALT. Where it raised a fatal condition: the same. -/
def Obligations.PointerAfterAnInstruction : Prop :=
  ∀ (i : Instr) (s t : State), s.status = .running → exec i s = .next t →
    (t.status = .faulted → t.ip = s.ip) ∧
    (t.status ≠ .faulted →
      match i with
      | .add _ => t.ip = s.ip + 4
      | .mul _ => t.ip = s.ip + 4
      | .inp _ => t.ip = s.ip + 2
      | .out _ => t.ip = s.ip + 2
      | .jt m => ∃ a, ParamReads (.jt m) s 1 a ∧
          ((a = 0 ∧ t.ip = s.ip + 3) ∨ (a ≠ 0 ∧ ParamReads (.jt m) s 2 (t.ip : Int)))
      | .jf m => ∃ a, ParamReads (.jf m) s 1 a ∧
          ((a ≠ 0 ∧ t.ip = s.ip + 3) ∨ (a = 0 ∧ ParamReads (.jf m) s 2 (t.ip : Int)))
      | .lt _ => t.ip = s.ip + 4
      | .eq _ => t.ip = s.ip + 4
      | .halt _ => t.ip = s.ip)

/-- Rule R122: what an instruction of a running engine commits. Where it completed: the memory cell at its destination
`Dst(3)` (ADD, MUL, LT, EQ) or `Dst(1)` (IN, with `cur` by 1), or the value of parameter 1 appended to `OUT` (OUT), or
nothing (JT, JF), and the pointer; or `status` alone (HALT). Where it raised a fatal condition: exactly `status`,
`fcause` and `finfo`. -/
def Obligations.InstructionCommitsOnce : Prop :=
  ∀ (i : Instr) (s t : State), s.status = .running → exec i s = .next t →
    (t.status = .faulted → t = Faulted s t.fcause t.finfo) ∧
    (t.status ≠ .faulted →
      match i with
      | .add m => ∃ d v, Stores (.add m) s d v ∧ t = { s with mem := s.mem.set d v, ip := t.ip }
      | .mul m => ∃ d v, Stores (.mul m) s d v ∧ t = { s with mem := s.mem.set d v, ip := t.ip }
      | .inp m => ∃ d v, Stores (.inp m) s d v ∧ t = { s with mem := s.mem.set d v, cur := s.cur + 1, ip := t.ip }
      | .out m => ∃ v, ParamReads (.out m) s 1 v ∧ t = { s with out := s.out ++ [v], ip := t.ip }
      | .jt _ => t = { s with ip := t.ip }
      | .jf _ => t = { s with ip := t.ip }
      | .lt m => ∃ d v, Stores (.lt m) s d v ∧ t = { s with mem := s.mem.set d v, ip := t.ip }
      | .eq m => ∃ d v, Stores (.eq m) s d v ∧ t = { s with mem := s.mem.set d v, ip := t.ip }
      | .halt _ => t = { s with status := .halted })

/-- Rule R123: the response of a Step. `halted` exactly when it executed HALT or found `HALTED`; `fault` with the record
exactly when it raised that fatal condition or found it recorded; `continues` only when it executed an instruction
other than HALT. -/
def Obligations.ResponseSaysWhatTheStepDid : Prop :=
  ∀ s : State,
    (s.status = .halted → (stepRequest s).1 = .halted) ∧
    (s.status = .faulted → (stepRequest s).1 = .fault s.fcause s.finfo) ∧
    (s.status = .running →
      ((stepRequest s).1 = .halted ↔ ∃ w modes, s.mem[s.ip]? = some w ∧ decode w = .ok (.halt modes)) ∧
      (∀ c f, (stepRequest s).1 = .fault c f ↔ step s = .next (Faulted s c f)) ∧
      ((stepRequest s).1 = .continues →
        ∃ w i, s.mem[s.ip]? = some w ∧ decode w = .ok i ∧ (∀ modes, i ≠ .halt modes) ∧ step s = exec i s))

/-- Rule R210: which instruction can raise which fatal condition, by its code. ADD, MUL: 7, 8, 9. LT, EQ: 7, 8. IN: 7,
6. OUT: 7, 8. JT, JF: 7, 8, 5. HALT: none. Before the instruction is known a Step raises 2, 3 or 4; Load raises 1. -/
def Obligations.FaultCausesByInstruction : Prop :=
  (∀ (i : Instr) (s t : State), s.status = .running → exec i s = .next t → t.status = .faulted →
    match i with
    | .add _ => t.fcause = 7 ∨ t.fcause = 8 ∨ t.fcause = 9
    | .mul _ => t.fcause = 7 ∨ t.fcause = 8 ∨ t.fcause = 9
    | .inp _ => t.fcause = 7 ∨ t.fcause = 6
    | .out _ => t.fcause = 7 ∨ t.fcause = 8
    | .jt _ => t.fcause = 7 ∨ t.fcause = 8 ∨ t.fcause = 5
    | .jf _ => t.fcause = 7 ∨ t.fcause = 8 ∨ t.fcause = 5
    | .lt _ => t.fcause = 7 ∨ t.fcause = 8
    | .eq _ => t.fcause = 7 ∨ t.fcause = 8
    | .halt _ => False) ∧
  (∀ s t : State, s.status = .running → (∀ w i, s.mem[s.ip]? = some w → decode w ≠ .ok i) → step s = .next t →
    t.status = .faulted ∧ (t.fcause = 2 ∨ t.fcause = 3 ∨ t.fcause = 4)) ∧
  (∀ cb text input c, load cb text input = .error (.fatal c) → c.code = 1)

/-- A store by ADD, MUL, LT, EQ or IN is seen by whatever reads the cell next, and does not disturb the instruction that
makes it (rules R62, R63, R251). The instruction completes as decoded, also where it stores on its own cells: the
pointer moves by its length and no cell but the destination's changes. After it the destination holds the value stored:
the next Step executes what it decodes to where the pointer stands on it, a fetch reads it wherever the pointer comes to
stand on it, and it is read as a parameter of the next instruction where it is one. The spec's two examples hold. -/
def Obligations.SelfModificationIsSeenByTheNextFetch : Prop :=
  (∀ (s : State) (w : Int) (i : Instr) (d : Nat) (v : Int),
    s.status = .running → s.mem[s.ip]? = some w → decode w = .ok i → Stores i s d v →
    ∃ t, step s = .next t ∧ t.status = .running ∧ t.ip = s.ip + i.length ∧
      t.mem[d]? = some v ∧ (∀ a, a ≠ d → t.mem[a]? = s.mem[a]?) ∧
      (d = t.ip → ∀ j, decode v = .ok j → step t = exec j t) ∧
      fetchWord { t with ip := d } = .ok v ∧
      (∀ n, d = t.ip + n → rawParam n t = .ok v)) ∧
  runFuel 2 (State.ofImage (.bits 64) [1101, 50, 49, 4, 0] (.values [])) =
    { State.ofImage (.bits 64) [1101, 50, 49, 4, 99] (.values []) with ip := 4, status := .halted } ∧
  runFuel 2 (State.ofImage (.bits 64) [1, 0, 0, 0, 99] (.values [])) =
    { State.ofImage (.bits 64) [2, 0, 0, 0, 99] (.values []) with ip := 4, status := .halted }

/-! ## Runs -/

/-- Run adds nothing to the Steps it makes: a run of `j + k` Steps is a run of `j` and then of `k`; a run of one Step is
the state after the Step; and a run changes nothing in a state that has ended (rules R124, R255). -/
def Obligations.RunIsRepeatedStep : Prop :=
  (∀ (j k : Nat) (s : State), runFuel (j + k) s = runFuel k (runFuel j s)) ∧
  (∀ s t : State, step s = .next t → runFuel 1 s = t) ∧
  (∀ (k : Nat) (s : State), s.ended = true → runFuel k s = s)

/-- A run that ends `HALTED` has the pointer at a word of opcode 99, which it executed last (rules R129, R255). -/
def Obligations.HaltedRunStandsAtAHaltWord : Prop :=
  ∀ (k : Nat) (s : State), s.status = .running → (runFuel k s).status = .halted →
    ∃ w : Nat, (runFuel k s).mem[(runFuel k s).ip]? = some (w : Int) ∧ w % 100 = 99

/-- No run makes memory longer or shorter, and none changes the width or the input sequence (rules R6, R28, R51; test
obligation T9). -/
def Obligations.MemoryLengthIsFixed : Prop :=
  ∀ (k : Nat) (s : State),
    (runFuel k s).mem.length = s.mem.length ∧ (runFuel k s).cellBits = s.cellBits ∧ (runFuel k s).input = s.input

/-- After more Steps the output sequence has the earlier one at its front, and no consumed input comes back
(rules R28, R29, R126). -/
def Obligations.OutputsOnlyGrow : Prop :=
  ∀ (k : Nat) (s : State), (∃ more, outputs (runFuel k s) = outputs s ++ more) ∧ s.cur ≤ (runFuel k s).cur

/-! ## The invariant, reset and Load -/

/-- The registers after reset, at the values the spec states (rule R36): pointer 0, no output, nothing consumed, running,
no fault recorded. That no program is loaded (memory empty) and no input bound (an empty sequence) is the model's choice
(assumption log 5), and the width is the spec's default (assumption log 1). -/
def Obligations.ResetRegisters : Prop :=
  State.reset.ip = 0 ∧ State.reset.out = [] ∧ State.reset.cur = 0 ∧ State.reset.status = .running ∧
  State.reset.fcause = 0 ∧ State.reset.finfo = 0 ∧
  State.reset.mem = [] ∧ State.reset.input = .values [] ∧ State.reset.cellBits = .bits 64

/-- The invariant holds at reset (rules R6, R22, R27, R28, R36; the empty memory and input are the model's choice,
assumption log 5). -/
def Obligations.InvariantHoldsAtReset : Prop := State.reset.Inv

/-- Every Step keeps the invariant, from every state that has it: the cells, the outputs and the inputs stay in the cell
range, the cursor inside a finite input, the fault record 0, 0 without a fault and the record of a fatal condition with
one (rules R22, R27, R28). -/
def Obligations.StepKeepsTheInvariant : Prop :=
  ∀ s t : State, s.Inv → step s = .next t → t.Inv

/-- Rules R36 and R245: a Load of a text that parses, at an admitted width and with an input of the cell range, answers
an instance, whatever the program is; after a successful Load every register has the value the spec states, memory is
the image the text parses to, which has at least one cell, the input is the sequence handed over, and the first Step
executes the instruction at address 0; and a text that does not parse gives no instance. -/
def Obligations.LoadGivesTheResetValues : Prop :=
  (∀ (cb : CellBits) (text : List Char) (input : Input) (s : State), load cb text input = .ok s →
    parseProgram cb text = some s.mem ∧ 1 ≤ s.mem.length ∧ s.ip = 0 ∧ s.out = [] ∧ s.cur = 0 ∧ s.input = input ∧
    s.status = .running ∧ s.fcause = 0 ∧ s.finfo = 0 ∧ s.cellBits = cb ∧
    (∀ w i, s.mem[0]? = some w → decode w = .ok i → step s = exec i s)) ∧
  (∀ (cb : CellBits) (text : List Char) (input : Input), WidthAdmitted cb → parseProgram cb text = none →
    load cb text input = .error (.fatal .malformedProgram)) ∧
  (∀ (cb : CellBits) (text : List Char) (input : Input) (image : List Int),
    WidthAdmitted cb → parseProgram cb text = some image →
    (∀ k v, input.valueAt cb k = some v → FitsCell cb v) →
    load cb text input = .ok
      { cellBits := cb, mem := image, ip := 0, input := input, cur := 0, out := [], status := .running, fcause := 0,
        finfo := 0 })

/-- A loaded instance has the invariant (rules R6, R22, R28, R36, R241). That its width is admitted and its input lies in
the cell range rests on Load refusing the others, which is the model's choice: rules R6, R22 and R28 put them outside
the spec's model, and the spec's Load checks neither (assumption log 8). -/
def Obligations.LoadEstablishesTheInvariant : Prop :=
  ∀ (cb : CellBits) (text : List Char) (input : Input) (s : State), load cb text input = .ok s → s.Inv

/-! ## Program text -/

/-- The program text of a non-empty image of in-range integers, its integers joined by commas, parses back to the image
(rules R97, R98, R241). -/
def Obligations.ProgramTextParsesBack : Prop :=
  ∀ (cb : CellBits) (image : List Int), image ≠ [] → (∀ v ∈ image, FitsCell cb v) →
    parseProgram cb (programText image) = some image

/-- Line feeds and carriage returns are removed wherever they stand, inside a number too (rule R98 step 1, rule R99). -/
def Obligations.LineBreaksAreRemoved : Prop :=
  ∀ (cb : CellBits) (x y : List Char) (c : Char), c = '\n' ∨ c = '\r' →
    parseProgram cb (x ++ c :: y) = parseProgram cb (x ++ y)

/-- A comma separates: a text parses exactly when the two sides of each of its commas do, and its image is theirs in
order (rule R98 step 2); spaces and tabs at either end of a text make no difference (step 3); a text with no comma and no
line break parses exactly when it is a token of the grammar with a value of the cell range, and that is its one cell
(step 4). So anything else is refused, and with it what the rule lists: an empty token, a `+` sign, a space inside a
number or after its sign, letters, a sign without digits, two signs, a value outside the cell range (rules R98, R99). -/
def Obligations.CommasSeparateTokens : Prop :=
  (∀ (cb : CellBits) (x y : List Char),
    (∀ a b, parseProgram cb x = some a → parseProgram cb y = some b → parseProgram cb (x ++ ',' :: y) = some (a ++ b)) ∧
    (parseProgram cb x = none ∨ parseProgram cb y = none → parseProgram cb (x ++ ',' :: y) = none) ∧
    (∀ c, c = ' ' ∨ c = '\t' → parseProgram cb (c :: x) = parseProgram cb x ∧
      parseProgram cb (x ++ [c]) = parseProgram cb x) ∧
    ((∀ c ∈ x, c ≠ ',' ∧ c ≠ '\n' ∧ c ≠ '\r') →
      ∀ image, parseProgram cb x = some image ↔ ∃ v, TokenIs x v ∧ FitsCell cb v ∧ image = [v])) ∧
  (∀ cb : CellBits, ∀ x ∈ [[], ['+', '1'], ['1', ' ', '2'], ['-', ' ', '1'], ['0', 'x', '1', '0'], ['1', '.', '5'], ['-'],
    ['-', '-', '1']], parseProgram cb x = none) ∧
  (∀ x ∈ [['3', '2', '7', '6', '8'], ['-', '3', '2', '7', '6', '9']], parseProgram (.bits 16) x = none)

/-! ## What a run cannot depend on -/

/-- The output sequence is never read back: with any earlier output put in front of it, every Step does the same and
appends the same (rules R25, R29, R50, R151). -/
def Obligations.OutputIsNeverReadBack : Prop :=
  ∀ (s t : State) (earlier : List Int), step s = .next t →
    step { s with out := earlier ++ s.out } = .next { t with out := earlier ++ t.out }

/-- There is no look-ahead and no way back in the input: a Step depends on the input sequence only through the value at
the cursor, or its absence (rules R28, R152). -/
def Obligations.InputIsReadOnlyAtTheCursor : Prop :=
  ∀ (s t : State) (input : Input), input.valueAt s.cellBits s.cur = s.input.valueAt s.cellBits s.cur →
    step s = .next t → step { s with input := input } = .next { t with input := input }

/-- A wider cell shows only in `ArithmeticOverflow`: a run at 16 bits, the narrowest width the spec admits, with a finite
input and from a state with no such fault, that meets no such fault goes through the same states at every width the
spec admits (rules R6, R142; test obligation T10). -/
def Obligations.WidthShowsOnlyInOverflow : Prop :=
  ∀ (k : Nat) (s : State) (cb : CellBits) (vs : List Int),
    s.cellBits = .bits 16 → WidthAdmitted cb → s.input = .values vs → s.fcause ≠ 9 → (runFuel k s).fcause ≠ 9 →
    runFuel k { s with cellBits := cb } = { runFuel k s with cellBits := cb }
end

