-- ==== Sys2Proof/Laws/Decimal.lean ====
section
/-! SUPPORT. The decimal digits of the decoder are the library's digits in base 10, so its lemmas apply. -/

namespace Sys2Proof

theorem decimalDigitsUpTo_eq (fuel : Nat) : ∀ n : Nat, n ≤ fuel → decimalDigitsUpTo fuel n = Nat.digits 10 n := by
  induction fuel with
  | zero => intro n h; simp [decimalDigitsUpTo, Nat.le_zero.mp h]
  | succ fuel ih =>
    intro n h
    rcases Nat.eq_zero_or_pos n with rfl | hn
    · simp [decimalDigitsUpTo]
    · have hlt : n / 10 ≤ fuel := by omega
      rw [decimalDigitsUpTo, if_neg (by omega), ih _ hlt, ← Nat.digits_def' (by omega) hn]

theorem decimalDigits_eq (n : Nat) : decimalDigits n = Nat.digits 10 n := decimalDigitsUpTo_eq n n le_rfl

theorem digitsValue_eq (ds : List Nat) : digitsValue ds = Nat.ofDigits 10 ds := by
  induction ds with
  | nil => rfl
  | cons d ds ih => simp [digitsValue, Nat.ofDigits_cons, ih]

/-- The digits of a number give the number back. -/
theorem digitsValue_decimalDigits (n : Nat) : digitsValue (decimalDigits n) = n := by
  rw [digitsValue_eq, decimalDigits_eq, Nat.ofDigits_digits]

/-- Every digit of a number is below 10. -/
theorem decimalDigits_lt {n d : Nat} (h : d ∈ decimalDigits n) : d < 10 := by
  rw [decimalDigits_eq] at h
  exact Nat.digits_lt_base (by omega) h

/-- The digit at position `i`, 0 when it is absent, is the digit of weight `10^i`. -/
theorem decimalDigits_getD (n i : Nat) : (decimalDigits n).getD i 0 = digit n i := by
  rw [decimalDigits_eq, Nat.getD_digits n i (by omega), digit]

end Sys2Proof
end

