-- ==== Sys2Proof/Laws/Decode.lean ====
section
/-! SUPPORT. Everything the decoder and the dispatch can do. -/

namespace Sys2Proof

/-- The dispatch selects an instruction exactly by its opcode, and hands the mode digits on. -/
theorem dispatch_eq_some_iff {d : Decoded} {i : Instr} :
    dispatch d = some i ↔ i.opcode = d.opcode ∧ i.modes = d.modes := by
  obtain ⟨op, m⟩ := d
  constructor
  · intro h
    unfold dispatch at h
    split at h <;> simp_all <;> subst h <;> simp [Instr.opcode, Instr.modes]
  · rintro ⟨rfl, rfl⟩
    cases i <;> rfl

/-- The opcodes that select nothing (rule R91). -/
theorem dispatch_eq_none_iff {d : Decoded} :
    dispatch d = none ↔ ¬(1 ≤ d.opcode ∧ d.opcode ≤ 8) ∧ d.opcode ≠ 99 := by
  obtain ⟨op, m⟩ := d
  constructor
  · intro h
    unfold dispatch at h
    split at h <;> simp_all
    omega
  · rintro ⟨h1, h2⟩
    cases hd : dispatch ⟨op, m⟩ with
    | none => rfl
    | some i =>
      obtain ⟨h, -⟩ := dispatch_eq_some_iff.mp hd
      simp only at h h1 h2
      cases i <;> simp [Instr.opcode] at h <;> omega

/-- What a cell decodes to: it is not negative, and its digits are the instruction's. -/
theorem decode_eq_ok_iff {w : Int} {i : Instr} :
    decode w = .ok i ↔
      0 ≤ w ∧ i.opcode = w.toNat % 100 ∧ i.modes = decimalDigits (w.toNat / 100) := by
  unfold decode
  by_cases hw : w < 0
  · simp [hw]
  · have h0 : 0 ≤ w := by omega
    rw [if_neg hw]
    cases hd : dispatch (decodeWord w.toNat) with
    | none =>
      simp only [reduceCtorEq, false_iff]
      rintro ⟨-, h1, h2⟩
      have : dispatch (decodeWord w.toNat) = some i := dispatch_eq_some_iff.mpr ⟨h1, h2⟩
      rw [hd] at this
      cases this
    | some j =>
      rw [dispatch_eq_some_iff] at hd
      simp only [Except.ok.injEq, h0, true_and]
      constructor
      · rintro rfl; exact hd
      · rintro ⟨h1, h2⟩
        have : dispatch (decodeWord w.toNat) = some i := dispatch_eq_some_iff.mpr ⟨h1, h2⟩
        rw [dispatch_eq_some_iff.mpr hd] at this
        injection this

/-- The two ways a cell is no instruction word (rules R91, R92). -/
theorem decode_eq_error_iff {w : Int} {r : DecodeReject} :
    decode w = .error r ↔
      (w < 0 ∧ r = .negativeOperationCode w) ∨
      (0 ≤ w ∧ ¬(1 ≤ w.toNat % 100 ∧ w.toNat % 100 ≤ 8) ∧ w.toNat % 100 ≠ 99 ∧ r = .unknownOpcode (w.toNat % 100)) := by
  unfold decode
  by_cases hw : w < 0
  · have h0 : ¬0 ≤ w := by omega
    simp [hw, h0, eq_comm (a := r)]
  · have h0 : 0 ≤ w := by omega
    rw [if_neg hw]
    cases hd : dispatch (decodeWord w.toNat) with
    | none =>
      have h := dispatch_eq_none_iff.mp hd
      simp only [decodeWord] at h
      simp [hw, h0, h.1, h.2, decodeWord, eq_comm (a := r)]
    | some j =>
      have h : ¬(¬(1 ≤ w.toNat % 100 ∧ w.toNat % 100 ≤ 8) ∧ w.toNat % 100 ≠ 99) := by
        intro hn
        have : dispatch (decodeWord w.toNat) = none := dispatch_eq_none_iff.mpr hn
        rw [hd] at this
        cases this
      simp only [reduceCtorEq, false_iff, hw, false_and, false_or, h0, true_and]
      rintro ⟨h1, h2, -⟩
      exact h ⟨h1, h2⟩

end Sys2Proof
end

