-- ==== Sys2Proof/Laws/Memory.lean ====
section
/-! SUPPORT. Everything the memory operations can do, once each; the laws of reading after writing; the canonical form. -/

namespace Sys2Proof.Machine

/-- The bounds check answers the address itself, exactly for a valid one. -/
theorem checkAddress_eq_ok_iff {mem : List Int} {a b : Int} :
    checkAddress mem a = .ok b ↔ b = a ∧ 0 ≤ a ∧ a < (mem.length : Int) := by
  unfold checkAddress
  split <;> rename_i h <;> simp [h, eq_comm]

theorem checkAddress_eq_error_iff {mem : List Int} {a : Int} {c : FatalCondition} :
    checkAddress mem a = .error c ↔ c = .memoryOutOfBounds a ∧ ¬(0 ≤ a ∧ a < (mem.length : Int)) := by
  unfold checkAddress
  split <;> simp_all [eq_comm]

/-- A read answers the cell, exactly where there is one. -/
theorem memRead_eq_ok_iff {mem : List Int} {a : Int} {v : Int} :
    memRead mem a = .ok v ↔ 0 ≤ a ∧ mem[a.toNat]? = some v := by
  unfold memRead
  by_cases h : a < 0
  · simp [h]
  · rw [if_neg h]
    cases hv : mem[a.toNat]? <;> simp; omega

theorem memRead_eq_error_iff {mem : List Int} {a : Int} {c : FatalCondition} :
    memRead mem a = .error c ↔ c = .memoryOutOfBounds a ∧ ¬(0 ≤ a ∧ a < (mem.length : Int)) := by
  unfold memRead
  by_cases h : a < 0
  · have : ¬(0 ≤ a ∧ a < (mem.length : Int)) := by omega
    simp [h, this, eq_comm]
  · rw [if_neg h]
    cases hv : mem[a.toNat]? with
    | none => rw [List.getElem?_eq_none_iff] at hv; simp [eq_comm]; omega
    | some v =>
      obtain ⟨hlt, -⟩ := List.getElem?_eq_some_iff.mp hv
      simp; omega

/-- A write replaces one cell, exactly at a valid address. -/
theorem memWrite_eq_ok_iff {mem mem' : List Int} {a : Int} {v : Int} :
    memWrite mem a v = .ok mem' ↔ mem' = mem.set a.toNat v ∧ 0 ≤ a ∧ a < (mem.length : Int) := by
  unfold memWrite
  split <;> simp_all [eq_comm]

theorem memWrite_eq_error_iff {mem : List Int} {a : Int} {v : Int} {c : FatalCondition} :
    memWrite mem a v = .error c ↔ c = .memoryOutOfBounds a ∧ ¬(0 ≤ a ∧ a < (mem.length : Int)) := by
  unfold memWrite
  split <;> simp_all [eq_comm]

/-- No write changes the number of cells. -/
theorem memWrite_length {mem mem' : List Int} {a : Int} {v : Int} (h : memWrite mem a v = .ok mem') :
    mem'.length = mem.length := by
  obtain ⟨rfl, -⟩ := memWrite_eq_ok_iff.mp h
  simp

/-- Two memories that read alike everywhere are the same list: the form is canonical. -/
theorem memory_ext {m m' : List Int} (h : ∀ a : Int, memRead m a = memRead m' a) : m = m' := by
  refine List.ext_getElem? fun k => Option.ext fun v => ?_
  have hk := h (k : Int)
  have e : ∀ l : List Int, l[k]? = some v ↔ memRead l (k : Int) = .ok v := fun l => by
    simp [memRead_eq_ok_iff]
  rw [e, e, hk]

/-- A write of a value in range keeps every cell in range. -/
theorem memWrite_wf {cb : CellBits} {mem mem' : List Int} {a : Int} {v : Int}
    (hm : Memory.wf cb mem = true) (hv : cb.inRange v = true) (h : memWrite mem a v = .ok mem') :
    Memory.wf cb mem' = true := by
  obtain ⟨rfl, -⟩ := memWrite_eq_ok_iff.mp h
  simp only [Memory.wf, List.all_eq_true] at hm ⊢
  intro x hx
  rcases List.mem_or_eq_of_mem_set hx with hx | rfl
  · exact hm x hx
  · exact hv

/-- A value read from a memory in range is in range. -/
theorem memRead_inRange {cb : CellBits} {mem : List Int} {a : Int} {v : Int}
    (hm : Memory.wf cb mem = true) (h : memRead mem a = .ok v) : cb.inRange v = true := by
  simp only [Memory.wf, List.all_eq_true] at hm
  exact hm v (List.mem_of_getElem? (memRead_eq_ok_iff.mp h).2)

theorem reset_memory_wf (cb : CellBits) : Memory.wf cb State.reset.mem = true := rfl

/-- The range check passes a value on unchanged, exactly where it fits. -/
theorem narrow_eq_ok_iff {cb : CellBits} {r v : Int} : narrow cb r = .ok v ↔ v = r ∧ cb.inRange r = true := by
  unfold narrow
  split <;> rename_i h <;> simp [h, eq_comm]

theorem narrow_eq_error_iff {cb : CellBits} {r : Int} {c : FatalCondition} :
    narrow cb r = .error c ↔ c = .arithmeticOverflow ∧ cb.inRange r = false := by
  unfold narrow
  split <;> rename_i h <;> simp [h, eq_comm]

/-- The range check of an `n`-bit cell. -/
theorem inRange_bits_iff {n : Nat} {v : Int} :
    (CellBits.bits n).inRange v = true ↔ cellMin n ≤ v ∧ v ≤ cellMax n := by
  simp [CellBits.inRange]

@[simp] theorem inRange_inf (v : Int) : CellBits.inf.inRange v = true := rfl

/-- The truth value is in range for every width the spec admits. -/
theorem truthValue_inRange {cb : CellBits} (h : cb.admitted = true) (b : Bool) : cb.inRange (truthValue b) = true := by
  cases cb with
  | inf => rfl
  | bits n =>
    have h1 : 1 < 2 ^ (n - 1) := Nat.one_lt_two_pow (by simp [CellBits.admitted] at h; omega)
    have h2 : -((2 ^ (n - 1) : Nat) : Int) ≤ truthValue b ∧ truthValue b ≤ ((2 ^ (n - 1) : Nat) : Int) - 1 := by
      generalize 2 ^ (n - 1) = k at h1
      cases b <;> simp [truthValue] <;> omega
    exact inRange_bits_iff.mpr h2

end Sys2Proof.Machine
end

