-- ==== Sys2Proof/Laws/State.lean ====
section
/-! SUPPORT. What each update of the state does to each field: one lemma per field per update, so that no later proof
unfolds a record update. -/

namespace Sys2Proof.Machine

/-! ## raiseFatal -/

@[simp] theorem raiseFatal_cellBits (c : FatalCondition) (s : State) : (raiseFatal c s).cellBits = s.cellBits := rfl
@[simp] theorem raiseFatal_mem (c : FatalCondition) (s : State) : (raiseFatal c s).mem = s.mem := rfl
@[simp] theorem raiseFatal_ip (c : FatalCondition) (s : State) : (raiseFatal c s).ip = s.ip := rfl
@[simp] theorem raiseFatal_input (c : FatalCondition) (s : State) : (raiseFatal c s).input = s.input := rfl
@[simp] theorem raiseFatal_cur (c : FatalCondition) (s : State) : (raiseFatal c s).cur = s.cur := rfl
@[simp] theorem raiseFatal_out (c : FatalCondition) (s : State) : (raiseFatal c s).out = s.out := rfl
@[simp] theorem raiseFatal_status (c : FatalCondition) (s : State) : (raiseFatal c s).status = Status.faulted := rfl
@[simp] theorem raiseFatal_fcause (c : FatalCondition) (s : State) : (raiseFatal c s).fcause = c.code := rfl
@[simp] theorem raiseFatal_finfo (c : FatalCondition) (s : State) : (raiseFatal c s).finfo = c.info := rfl

/-! ## State.advance -/

@[simp] theorem State.advance_cellBits (s : State) (n : Nat) : (s.advance n).cellBits = s.cellBits := rfl
@[simp] theorem State.advance_mem (s : State) (n : Nat) : (s.advance n).mem = s.mem := rfl
@[simp] theorem State.advance_ip (s : State) (n : Nat) : (s.advance n).ip = s.ip + n := rfl
@[simp] theorem State.advance_input (s : State) (n : Nat) : (s.advance n).input = s.input := rfl
@[simp] theorem State.advance_cur (s : State) (n : Nat) : (s.advance n).cur = s.cur := rfl
@[simp] theorem State.advance_out (s : State) (n : Nat) : (s.advance n).out = s.out := rfl
@[simp] theorem State.advance_status (s : State) (n : Nat) : (s.advance n).status = s.status := rfl
@[simp] theorem State.advance_fcause (s : State) (n : Nat) : (s.advance n).fcause = s.fcause := rfl
@[simp] theorem State.advance_finfo (s : State) (n : Nat) : (s.advance n).finfo = s.finfo := rfl

/-! ## State.jumpTo -/

@[simp] theorem State.jumpTo_cellBits (s : State) (t : Nat) : (s.jumpTo t).cellBits = s.cellBits := rfl
@[simp] theorem State.jumpTo_mem (s : State) (t : Nat) : (s.jumpTo t).mem = s.mem := rfl
@[simp] theorem State.jumpTo_ip (s : State) (t : Nat) : (s.jumpTo t).ip = t := rfl
@[simp] theorem State.jumpTo_input (s : State) (t : Nat) : (s.jumpTo t).input = s.input := rfl
@[simp] theorem State.jumpTo_cur (s : State) (t : Nat) : (s.jumpTo t).cur = s.cur := rfl
@[simp] theorem State.jumpTo_out (s : State) (t : Nat) : (s.jumpTo t).out = s.out := rfl
@[simp] theorem State.jumpTo_status (s : State) (t : Nat) : (s.jumpTo t).status = s.status := rfl
@[simp] theorem State.jumpTo_fcause (s : State) (t : Nat) : (s.jumpTo t).fcause = s.fcause := rfl
@[simp] theorem State.jumpTo_finfo (s : State) (t : Nat) : (s.jumpTo t).finfo = s.finfo := rfl

/-! ## State.appendOut -/

@[simp] theorem State.appendOut_cellBits (s : State) (v : Int) : (s.appendOut v).cellBits = s.cellBits := rfl
@[simp] theorem State.appendOut_mem (s : State) (v : Int) : (s.appendOut v).mem = s.mem := rfl
@[simp] theorem State.appendOut_ip (s : State) (v : Int) : (s.appendOut v).ip = s.ip := rfl
@[simp] theorem State.appendOut_input (s : State) (v : Int) : (s.appendOut v).input = s.input := rfl
@[simp] theorem State.appendOut_cur (s : State) (v : Int) : (s.appendOut v).cur = s.cur := rfl
@[simp] theorem State.appendOut_out (s : State) (v : Int) : (s.appendOut v).out = s.out ++ [v] := rfl
@[simp] theorem State.appendOut_status (s : State) (v : Int) : (s.appendOut v).status = s.status := rfl
@[simp] theorem State.appendOut_fcause (s : State) (v : Int) : (s.appendOut v).fcause = s.fcause := rfl
@[simp] theorem State.appendOut_finfo (s : State) (v : Int) : (s.appendOut v).finfo = s.finfo := rfl

/-! ## State.stop -/

@[simp] theorem State.stop_cellBits (s : State) : (s.stop).cellBits = s.cellBits := rfl
@[simp] theorem State.stop_mem (s : State) : (s.stop).mem = s.mem := rfl
@[simp] theorem State.stop_ip (s : State) : (s.stop).ip = s.ip := rfl
@[simp] theorem State.stop_input (s : State) : (s.stop).input = s.input := rfl
@[simp] theorem State.stop_cur (s : State) : (s.stop).cur = s.cur := rfl
@[simp] theorem State.stop_out (s : State) : (s.stop).out = s.out := rfl
@[simp] theorem State.stop_status (s : State) : (s.stop).status = Status.halted := rfl
@[simp] theorem State.stop_fcause (s : State) : (s.stop).fcause = s.fcause := rfl
@[simp] theorem State.stop_finfo (s : State) : (s.stop).finfo = s.finfo := rfl

/-! ## State.withMem -/

@[simp] theorem State.withMem_cellBits (s : State) (m : List Int) : (s.withMem m).cellBits = s.cellBits := rfl
@[simp] theorem State.withMem_mem (s : State) (m : List Int) : (s.withMem m).mem = m := rfl
@[simp] theorem State.withMem_ip (s : State) (m : List Int) : (s.withMem m).ip = s.ip := rfl
@[simp] theorem State.withMem_input (s : State) (m : List Int) : (s.withMem m).input = s.input := rfl
@[simp] theorem State.withMem_cur (s : State) (m : List Int) : (s.withMem m).cur = s.cur := rfl
@[simp] theorem State.withMem_out (s : State) (m : List Int) : (s.withMem m).out = s.out := rfl
@[simp] theorem State.withMem_status (s : State) (m : List Int) : (s.withMem m).status = s.status := rfl
@[simp] theorem State.withMem_fcause (s : State) (m : List Int) : (s.withMem m).fcause = s.fcause := rfl
@[simp] theorem State.withMem_finfo (s : State) (m : List Int) : (s.withMem m).finfo = s.finfo := rfl

/-! ## State.consume -/

@[simp] theorem State.consume_cellBits (s : State) : (s.consume).cellBits = s.cellBits := rfl
@[simp] theorem State.consume_mem (s : State) : (s.consume).mem = s.mem := rfl
@[simp] theorem State.consume_ip (s : State) : (s.consume).ip = s.ip := rfl
@[simp] theorem State.consume_input (s : State) : (s.consume).input = s.input := rfl
@[simp] theorem State.consume_cur (s : State) : (s.consume).cur = s.cur + 1 := rfl
@[simp] theorem State.consume_out (s : State) : (s.consume).out = s.out := rfl
@[simp] theorem State.consume_status (s : State) : (s.consume).status = s.status := rfl
@[simp] theorem State.consume_fcause (s : State) : (s.consume).fcause = s.fcause := rfl
@[simp] theorem State.consume_finfo (s : State) : (s.consume).finfo = s.finfo := rfl

/-! ## placeInstruction -/

@[simp] theorem placeInstruction_cellBits (s : State) (nbits w : Nat) : (placeInstruction s nbits w).cellBits = s.cellBits := rfl
@[simp] theorem placeInstruction_mem (s : State) (nbits w : Nat) : (placeInstruction s nbits w).mem = placeCells s.mem s.ip (tableCells s.cellBits nbits w) := rfl
@[simp] theorem placeInstruction_ip (s : State) (nbits w : Nat) : (placeInstruction s nbits w).ip = s.ip := rfl
@[simp] theorem placeInstruction_input (s : State) (nbits w : Nat) : (placeInstruction s nbits w).input = s.input := rfl
@[simp] theorem placeInstruction_cur (s : State) (nbits w : Nat) : (placeInstruction s nbits w).cur = s.cur := rfl
@[simp] theorem placeInstruction_out (s : State) (nbits w : Nat) : (placeInstruction s nbits w).out = s.out := rfl
@[simp] theorem placeInstruction_status (s : State) (nbits w : Nat) : (placeInstruction s nbits w).status = Status.running := rfl
@[simp] theorem placeInstruction_fcause (s : State) (nbits w : Nat) : (placeInstruction s nbits w).fcause = 0 := rfl
@[simp] theorem placeInstruction_finfo (s : State) (nbits w : Nat) : (placeInstruction s nbits w).finfo = 0 := rfl

/-! ## State.ofImage -/

@[simp] theorem State.ofImage_cellBits (cb : CellBits) (image : List Int) (input : Input) : (State.ofImage cb image input).cellBits = cb := rfl
@[simp] theorem State.ofImage_mem (cb : CellBits) (image : List Int) (input : Input) : (State.ofImage cb image input).mem = image := rfl
@[simp] theorem State.ofImage_ip (cb : CellBits) (image : List Int) (input : Input) : (State.ofImage cb image input).ip = 0 := rfl
@[simp] theorem State.ofImage_input (cb : CellBits) (image : List Int) (input : Input) : (State.ofImage cb image input).input = input := rfl
@[simp] theorem State.ofImage_cur (cb : CellBits) (image : List Int) (input : Input) : (State.ofImage cb image input).cur = 0 := rfl
@[simp] theorem State.ofImage_out (cb : CellBits) (image : List Int) (input : Input) : (State.ofImage cb image input).out = [] := rfl
@[simp] theorem State.ofImage_status (cb : CellBits) (image : List Int) (input : Input) : (State.ofImage cb image input).status = Status.running := rfl
@[simp] theorem State.ofImage_fcause (cb : CellBits) (image : List Int) (input : Input) : (State.ofImage cb image input).fcause = 0 := rfl
@[simp] theorem State.ofImage_finfo (cb : CellBits) (image : List Int) (input : Input) : (State.ofImage cb image input).finfo = 0 := rfl

/-! ## Reset -/

@[simp] theorem State.reset_cellBits : State.reset.cellBits = CellBits.bits 64 := rfl
@[simp] theorem State.reset_mem : State.reset.mem = [] := rfl
@[simp] theorem State.reset_ip : State.reset.ip = 0 := rfl
@[simp] theorem State.reset_input : State.reset.input = Input.values [] := rfl
@[simp] theorem State.reset_cur : State.reset.cur = 0 := rfl
@[simp] theorem State.reset_out : State.reset.out = [] := rfl
@[simp] theorem State.reset_status : State.reset.status = Status.running := rfl
@[simp] theorem State.reset_fcause : State.reset.fcause = 0 := rfl
@[simp] theorem State.reset_finfo : State.reset.finfo = 0 := rfl

end Sys2Proof.Machine
end

