-- ==== Sys2Proof/Laws/Operands.lean ====
section
/-! SUPPORT. Everything the operand forms and the shared templates of the instructions can do: if one answers a value or
a state, then these cases hold. -/

namespace Sys2Proof.Machine

/-! ## Operands -/

theorem rawParam_eq_ok_iff {n : Nat} {s : State} {v : Int} :
    rawParam n s = .ok v ↔ s.mem[s.ip + n]? = some v := by
  rw [rawParam, memRead_eq_ok_iff, Int.toNat_natCast]
  exact and_iff_right (Int.natCast_nonneg _)

theorem rawParam_eq_error_iff {n : Nat} {s : State} {c : FatalCondition} :
    rawParam n s = .error c ↔ c = .memoryOutOfBounds ((s.ip + n : Nat) : Int) ∧ s.mem.length ≤ s.ip + n := by
  rw [rawParam, memRead_eq_error_iff]
  constructor <;> rintro ⟨rfl, h⟩ <;> refine ⟨rfl, ?_⟩ <;> omega

/-- Read(N) answers a value in two ways: position and immediate mode. -/
theorem readParam_eq_ok_iff {i : Instr} {n : Nat} {s : State} {v : Int} :
    readParam i n s = .ok v ↔
      ∃ raw, s.mem[s.ip + n]? = some raw ∧
        ((i.modeDigit n = 0 ∧ 0 ≤ raw ∧ s.mem[raw.toNat]? = some v) ∨ (i.modeDigit n = 1 ∧ v = raw)) := by
  unfold readParam
  cases hr : rawParam n s with
  | error c =>
    simp only [reduceCtorEq, false_iff, not_exists, not_and]
    intro raw h
    rw [← rawParam_eq_ok_iff, hr] at h
    cases h
  | ok raw =>
    rw [rawParam_eq_ok_iff] at hr
    simp only [hr, Option.some.injEq, exists_eq_left']
    rcases hm : i.modeDigit n with _ | _ | k
    · simp [ParamMode.ofDigit, memRead_eq_ok_iff]
    · simp [ParamMode.ofDigit, eq_comm]
    · simp [ParamMode.ofDigit]

/-- Read(N) raises in three ways: no parameter cell, no such mode, no cell at the position operand. -/
theorem readParam_eq_error_iff {i : Instr} {n : Nat} {s : State} {c : FatalCondition} :
    readParam i n s = .error c ↔
      (s.mem.length ≤ s.ip + n ∧ c = .memoryOutOfBounds ((s.ip + n : Nat) : Int)) ∨
      ∃ raw, s.mem[s.ip + n]? = some raw ∧
        ((2 ≤ i.modeDigit n ∧ c = .invalidParameterMode (encode i)) ∨
          (i.modeDigit n = 0 ∧ ¬(0 ≤ raw ∧ raw < (s.mem.length : Int)) ∧ c = .memoryOutOfBounds raw)) := by
  unfold readParam
  cases hr : rawParam n s with
  | error c' =>
    obtain ⟨rfl, hlen⟩ := rawParam_eq_error_iff.mp hr
    simp [hlen, eq_comm]
  | ok raw =>
    rw [rawParam_eq_ok_iff] at hr
    have hlt : ¬ s.mem.length ≤ s.ip + n := by
      obtain ⟨h, -⟩ := List.getElem?_eq_some_iff.mp hr
      omega
    simp only [hr, Option.some.injEq, exists_eq_left', hlt, false_and, false_or]
    rcases hm : i.modeDigit n with _ | _ | k
    · simp [ParamMode.ofDigit, memRead_eq_error_iff]; tauto
    · simp [ParamMode.ofDigit]
    · simp [ParamMode.ofDigit, eq_comm]

/-- Dst(N) answers the parameter cell, exactly where it is a valid address. -/
theorem dstParam_eq_ok_iff {n : Nat} {s : State} {d : Int} :
    dstParam n s = .ok d ↔ s.mem[s.ip + n]? = some d ∧ 0 ≤ d ∧ d < (s.mem.length : Int) := by
  unfold dstParam
  cases hr : rawParam n s with
  | error c =>
    simp only [reduceCtorEq, false_iff, not_and]
    intro h
    rw [← rawParam_eq_ok_iff, hr] at h
    cases h
  | ok raw =>
    rw [rawParam_eq_ok_iff] at hr
    simp only [hr, Option.some.injEq, checkAddress_eq_ok_iff]
    constructor <;> rintro ⟨rfl, h⟩ <;> exact ⟨rfl, h⟩

theorem dstParam_eq_error_iff {n : Nat} {s : State} {c : FatalCondition} :
    dstParam n s = .error c ↔
      (s.mem.length ≤ s.ip + n ∧ c = .memoryOutOfBounds ((s.ip + n : Nat) : Int)) ∨
      ∃ raw, s.mem[s.ip + n]? = some raw ∧ ¬(0 ≤ raw ∧ raw < (s.mem.length : Int)) ∧ c = .memoryOutOfBounds raw := by
  unfold dstParam
  cases hr : rawParam n s with
  | error c' =>
    obtain ⟨rfl, hlen⟩ := rawParam_eq_error_iff.mp hr
    simp [hlen, eq_comm]
  | ok raw =>
    rw [rawParam_eq_ok_iff] at hr
    have hlt : ¬ s.mem.length ≤ s.ip + n := by
      obtain ⟨h, -⟩ := List.getElem?_eq_some_iff.mp hr
      omega
    simp only [hr, Option.some.injEq, exists_eq_left', hlt, false_and, false_or, checkAddress_eq_error_iff]
    tauto

/-! ## The input pull -/

theorem inNext_eq_ok_iff {s t : State} {v : Int} :
    inNext s = .ok (v, t) ↔ s.input.valueAt s.cellBits s.cur = some v ∧ t = s.consume := by
  unfold inNext
  cases h : s.input.valueAt s.cellBits s.cur <;> simp [eq_comm]

theorem inNext_eq_error_iff {s : State} {c : FatalCondition} :
    inNext s = .error c ↔ s.input.valueAt s.cellBits s.cur = none ∧ c = .inputExhaustion := by
  unfold inNext
  cases h : s.input.valueAt s.cellBits s.cur <;> simp [eq_comm]

/-! ## Templates -/

theorem storeAndAdvance_eq_ok_iff {a : Int} {v : Int} {n : Nat} {s t : State} :
    storeAndAdvance a v n s = .ok t ↔
      0 ≤ a ∧ a < (s.mem.length : Int) ∧ t = (s.withMem (s.mem.set a.toNat v)).advance n := by
  unfold storeAndAdvance
  cases h : memWrite s.mem a v with
  | ok m => obtain ⟨rfl, h1, h2⟩ := memWrite_eq_ok_iff.mp h; simp [h1, h2, eq_comm]
  | error c =>
    obtain ⟨-, h1⟩ := memWrite_eq_error_iff.mp h
    simp only [reduceCtorEq, false_iff]
    tauto

/-- What a four-cell instruction that completes has done (rule R120). -/
theorem computeAndStore_eq_ok_iff {i : Instr} {f : Int → Int → Except FatalCondition Int}
    {s t : State} :
    computeAndStore i f s = .ok t ↔
      ∃ a b d r, readParam i 1 s = .ok a ∧ readParam i 2 s = .ok b ∧ dstParam 3 s = .ok d ∧ f a b = .ok r ∧
        t = (s.withMem (s.mem.set d.toNat r)).advance i.length := by
  unfold computeAndStore
  cases h1 : readParam i 1 s with
  | error c => simp
  | ok a =>
    cases h2 : readParam i 2 s with
    | error c => simp
    | ok b =>
      cases h3 : dstParam 3 s with
      | error c => simp
      | ok d =>
        obtain ⟨-, hd0, hd1⟩ := dstParam_eq_ok_iff.mp h3
        cases h4 : f a b with
        | error c => simp [h4]
        | ok r => simp [storeAndAdvance_eq_ok_iff, hd0, hd1, h4]

/-- The order in which a four-cell instruction meets its fatal conditions (rules R120, R211). -/
theorem computeAndStore_eq_error_iff {i : Instr} {f : Int → Int → Except FatalCondition Int}
    {s : State} {c : FatalCondition} :
    computeAndStore i f s = .error c ↔
      readParam i 1 s = .error c ∨
      ∃ a, readParam i 1 s = .ok a ∧
        (readParam i 2 s = .error c ∨
          ∃ b, readParam i 2 s = .ok b ∧
            (dstParam 3 s = .error c ∨ ∃ d, dstParam 3 s = .ok d ∧ f a b = .error c)) := by
  unfold computeAndStore
  cases h1 : readParam i 1 s with
  | error c => simp
  | ok a =>
    cases h2 : readParam i 2 s with
    | error c => simp
    | ok b =>
      cases h3 : dstParam 3 s with
      | error c => simp
      | ok d =>
        obtain ⟨-, hd0, hd1⟩ := dstParam_eq_ok_iff.mp h3
        cases h4 : f a b with
        | error c => simp [h4]
        | ok r =>
          have : memWrite s.mem d r = .ok (s.mem.set d.toNat r) := memWrite_eq_ok_iff.mpr ⟨rfl, hd0, hd1⟩
          simp [storeAndAdvance, this, h4]

theorem pullAndStore_eq_ok_iff {i : Instr} {s t : State} :
    pullAndStore i s = .ok t ↔
      ∃ d v, dstParam 1 s = .ok d ∧ s.input.valueAt s.cellBits s.cur = some v ∧
        t = (s.consume.withMem (s.mem.set d.toNat v)).advance i.length := by
  unfold pullAndStore
  cases h1 : dstParam 1 s with
  | error c => simp
  | ok d =>
    obtain ⟨-, hd0, hd1⟩ := dstParam_eq_ok_iff.mp h1
    cases h2 : s.input.valueAt s.cellBits s.cur with
    | none => simp [inNext, h2]
    | some v => simp [inNext, h2, storeAndAdvance_eq_ok_iff, hd0, hd1]

theorem pullAndStore_eq_error_iff {i : Instr} {s : State} {c : FatalCondition} :
    pullAndStore i s = .error c ↔
      dstParam 1 s = .error c ∨
      ∃ d, dstParam 1 s = .ok d ∧ s.input.valueAt s.cellBits s.cur = none ∧ c = .inputExhaustion := by
  unfold pullAndStore
  cases h1 : dstParam 1 s with
  | error c => simp
  | ok d =>
    obtain ⟨-, hd0, hd1⟩ := dstParam_eq_ok_iff.mp h1
    cases h2 : s.input.valueAt s.cellBits s.cur with
    | none => simp [inNext, h2, eq_comm]
    | some v =>
      have : memWrite s.mem d v = .ok (s.mem.set d.toNat v) := memWrite_eq_ok_iff.mpr ⟨rfl, hd0, hd1⟩
      simp [inNext, h2, storeAndAdvance, this]

theorem readAndAppend_eq_ok_iff {i : Instr} {s t : State} :
    readAndAppend i s = .ok t ↔ ∃ a, readParam i 1 s = .ok a ∧ t = (s.appendOut a).advance i.length := by
  unfold readAndAppend
  cases h : readParam i 1 s <;> simp [eq_comm]

theorem readAndAppend_eq_error_iff {i : Instr} {s : State} {c : FatalCondition} :
    readAndAppend i s = .error c ↔ readParam i 1 s = .error c := by
  unfold readAndAppend
  cases h : readParam i 1 s <;> simp

theorem checkTarget_eq_ok_iff {t : Int} {k : Nat} : checkTarget t = .ok k ↔ 0 ≤ t ∧ k = t.toNat := by
  unfold checkTarget
  split <;> rename_i h
  · simp only [reduceCtorEq, false_iff]; omega
  · simp only [Except.ok.injEq, eq_comm]; omega

theorem checkTarget_eq_error_iff {t : Int} {c : FatalCondition} :
    checkTarget t = .error c ↔ t < 0 ∧ c = .negativeJumpTarget t := by
  unfold checkTarget
  split <;> rename_i h <;> simp [h, eq_comm]

/-- A jump that completes was not taken, or was taken to a target that is not negative (rules R160 to R163). -/
theorem jumpWhen_eq_ok_iff {i : Instr} {p : Int → Bool} {s t : State} :
    jumpWhen i p s = .ok t ↔
      ∃ a, readParam i 1 s = .ok a ∧
        ((p a = false ∧ t = s.advance i.length) ∨
          (p a = true ∧ ∃ u, readParam i 2 s = .ok u ∧ 0 ≤ u ∧ t = s.jumpTo u.toNat)) := by
  unfold jumpWhen
  cases h1 : readParam i 1 s with
  | error c => simp
  | ok a =>
    cases hp : p a with
    | false => simp [hp, eq_comm (a := t)]
    | true =>
      cases h2 : readParam i 2 s with
      | error c => simp [hp]
      | ok u =>
        cases h3 : checkTarget u with
        | error c =>
          have h : ¬0 ≤ u := by have := (checkTarget_eq_error_iff.mp h3).1; omega
          simp [hp, h, h3]
        | ok k =>
          obtain ⟨h, rfl⟩ := checkTarget_eq_ok_iff.mp h3
          simp [hp, h, h3, eq_comm (a := t)]

theorem jumpWhen_eq_error_iff {i : Instr} {p : Int → Bool} {s : State} {c : FatalCondition} :
    jumpWhen i p s = .error c ↔
      readParam i 1 s = .error c ∨
      ∃ a, readParam i 1 s = .ok a ∧ p a = true ∧
        (readParam i 2 s = .error c ∨
          ∃ u, readParam i 2 s = .ok u ∧ u < 0 ∧ c = .negativeJumpTarget u) := by
  unfold jumpWhen
  cases h1 : readParam i 1 s with
  | error c => simp
  | ok a =>
    cases hp : p a with
    | false => simp [hp]
    | true =>
      cases h2 : readParam i 2 s with
      | error c => simp [hp]
      | ok u =>
        cases h3 : checkTarget u with
        | error e =>
          obtain ⟨h, rfl⟩ := checkTarget_eq_error_iff.mp h3
          simp [hp, h, h3, eq_comm (a := c)]
        | ok k =>
          have h : ¬u < 0 := by have := (checkTarget_eq_ok_iff.mp h3).1; omega
          simp [hp, h, h3]

/-! ## The end of an instruction -/

theorem conclude_eq_next_iff {s t : State} {r : Except FatalCondition State} :
    conclude s r = .next t ↔ r = .ok t ∨ ∃ c, r = .error c ∧ t = raiseFatal c s := by
  cases r <;> simp [conclude, eq_comm]

end Sys2Proof.Machine
end

