-- ==== Sys2Proof/Laws/PerInstr.lean ====
section
/-! SUPPORT. The family `OpcodeDigits`: an instruction's word holds its opcode in the two low decimal digits and its
mode digits above, so the word selects the instruction's own row of the opcode table (rules R81, R104). -/

namespace Sys2Proof.Laws.OpcodeDigits

/-- The two parts of the instruction's word are the instruction's. -/
def Statement (i : Instr) : Prop := encode i % 100 = i.opcode ∧ encode i / 100 = digitsValue i.modes

theorem add (modes : ModeDigits) : Statement (.add modes) := by
  simp only [Statement, encode, Instr.opcode, Instr.modes]; omega

theorem mul (modes : ModeDigits) : Statement (.mul modes) := by
  simp only [Statement, encode, Instr.opcode, Instr.modes]; omega

theorem inp (modes : ModeDigits) : Statement (.inp modes) := by
  simp only [Statement, encode, Instr.opcode, Instr.modes]; omega

theorem out (modes : ModeDigits) : Statement (.out modes) := by
  simp only [Statement, encode, Instr.opcode, Instr.modes]; omega

theorem jt (modes : ModeDigits) : Statement (.jt modes) := by
  simp only [Statement, encode, Instr.opcode, Instr.modes]; omega

theorem jf (modes : ModeDigits) : Statement (.jf modes) := by
  simp only [Statement, encode, Instr.opcode, Instr.modes]; omega

theorem lt (modes : ModeDigits) : Statement (.lt modes) := by
  simp only [Statement, encode, Instr.opcode, Instr.modes]; omega

theorem eq (modes : ModeDigits) : Statement (.eq modes) := by
  simp only [Statement, encode, Instr.opcode, Instr.modes]; omega

theorem halt (modes : ModeDigits) : Statement (.halt modes) := by
  simp only [Statement, encode, Instr.opcode, Instr.modes]; omega

end Sys2Proof.Laws.OpcodeDigits
end

