-- ==== Sys2Proof/Laws/Step.lean ====
section
/-! SUPPORT. Everything a fetch, an instruction and a Step can do. -/

namespace Sys2Proof.Machine

theorem fetchWord_eq_ok_iff {s : State} {w : Int} : fetchWord s = .ok w ↔ s.mem[s.ip]? = some w := by
  unfold fetchWord
  cases h : s.mem[s.ip]? <;> simp

theorem fetchWord_eq_error_iff {s : State} {c : FatalCondition} :
    fetchWord s = .error c ↔ s.mem.length ≤ s.ip ∧ c = .invalidInstructionPointer s.ip := by
  unfold fetchWord
  cases h : s.mem[s.ip]? with
  | none => rw [List.getElem?_eq_none_iff] at h; simp [h, eq_comm (a := c)]
  | some w =>
    obtain ⟨h, -⟩ := List.getElem?_eq_some_iff.mp h
    simp; omega

theorem fetchInstr_eq_ok_iff {s : State} {i : Instr} :
    fetchInstr s = .ok i ↔ ∃ w, s.mem[s.ip]? = some w ∧ decode w = .ok i := by
  unfold fetchInstr
  cases h : fetchWord s with
  | error c =>
    obtain ⟨h, -⟩ := fetchWord_eq_error_iff.mp h
    simp [h]
  | ok w =>
    rw [fetchWord_eq_ok_iff] at h
    cases hd : decode w <;> simp [h, hd]

theorem fetchInstr_eq_error_iff {s : State} {c : FatalCondition} :
    fetchInstr s = .error c ↔
      (s.mem.length ≤ s.ip ∧ c = .invalidInstructionPointer s.ip) ∨
      ∃ w r, s.mem[s.ip]? = some w ∧ decode w = .error r ∧ c = fatalOfReject r := by
  unfold fetchInstr
  cases h : fetchWord s with
  | error c' =>
    obtain ⟨hlen, rfl⟩ := fetchWord_eq_error_iff.mp h
    simp [hlen, eq_comm (a := c)]
  | ok w =>
    rw [fetchWord_eq_ok_iff] at h
    have hlt : ¬ s.mem.length ≤ s.ip := by
      obtain ⟨h, -⟩ := List.getElem?_eq_some_iff.mp h
      omega
    cases hd : decode w <;> simp [h, hd, hlt, eq_comm (a := c)]

/-- The effect of each instruction, before it is concluded. -/
def effect (i : Instr) (s : State) : Except FatalCondition State :=
  match i with
  | .add _ => computeAndStore i (fun a b => narrow s.cellBits (a + b)) s
  | .mul _ => computeAndStore i (fun a b => narrow s.cellBits (a * b)) s
  | .inp _ => pullAndStore i s
  | .out _ => readAndAppend i s
  | .jt _ => jumpWhen i (fun a => decide (a ≠ 0)) s
  | .jf _ => jumpWhen i (fun a => decide (a = 0)) s
  | .lt _ => computeAndStore i (fun a b => .ok (truthValue (decide (a < b)))) s
  | .eq _ => computeAndStore i (fun a b => .ok (truthValue (decide (a = b)))) s
  | .halt _ => .ok s.stop

/-- Every instruction is the conclusion of its effect. -/
theorem exec_eq_conclude (i : Instr) (s : State) : exec i s = conclude s (effect i s) := by
  cases i <;> rfl

/-- What an instruction can do: commit its effect, or enter the fatal condition it met. -/
theorem exec_eq_next_iff {i : Instr} {s t : State} :
    exec i s = .next t ↔ effect i s = .ok t ∨ ∃ c, effect i s = .error c ∧ t = raiseFatal c s := by
  rw [exec_eq_conclude, conclude_eq_next_iff]

/-- What a Step can do: nothing in a state that has ended; else it raises a fatal condition of the fetch, or concludes
the instruction it fetched. -/
theorem after_cases (s : State) :
    (s.status ≠ .running ∧ s.after = s) ∨
    (s.status = .running ∧ ∃ c, fetchInstr s = .error c ∧ s.after = raiseFatal c s) ∨
    (s.status = .running ∧ ∃ i, fetchInstr s = .ok i ∧
      (effect i s = .ok s.after ∨ ∃ c, effect i s = .error c ∧ s.after = raiseFatal c s)) := by
  unfold State.after step
  rcases hs : s.status with _ | _ | _
  · cases hf : fetchInstr s with
    | error c => simp
    | ok i =>
      right; right
      refine ⟨rfl, i, rfl, ?_⟩
      simp only [exec_eq_conclude]
      cases he : effect i s <;> simp [conclude]
  · simp
  · simp

end Sys2Proof.Machine
end

