-- ==== Sys2Proof/Laws/Safety.lean ====
section
/-! SUPPORT. The terms of Safety.lean, written over the plain state, and the operations of Machine/ say the same. -/

namespace Sys2Proof.Machine

theorem fitsCell_iff_inRange {cb : CellBits} {v : Int} : FitsCell cb v ↔ cb.inRange v = true := by
  cases cb with
  | inf => simp [FitsCell]
  | bits n =>
    rw [inRange_bits_iff, cellMin, cellMax, FitsCell]
    push_cast
    omega

theorem widthAdmitted_iff {cb : CellBits} : WidthAdmitted cb ↔ cb.admitted = true := by
  cases cb <;> simp [WidthAdmitted, CellBits.admitted]

theorem paramReads_iff {i : Instr} {s : State} {n : Nat} {v : Int} :
    ParamReads i s n v ↔ readParam i n s = .ok v := readParam_eq_ok_iff.symm

theorem paramFaults_iff {i : Instr} {s : State} {n : Nat} {c : FatalCondition} :
    ParamFaults i s n c ↔ readParam i n s = .error c := readParam_eq_error_iff.symm

theorem destinationIs_iff {s : State} {n d : Nat} : DestinationIs s n d ↔ dstParam n s = .ok (d : Int) := by
  rw [dstParam_eq_ok_iff, DestinationIs]
  exact and_congr_right fun _ => by omega

theorem destinationFaults_iff {s : State} {n : Nat} {c : FatalCondition} :
    DestinationFaults s n c ↔ dstParam n s = .error c := dstParam_eq_error_iff.symm

/-- A destination is a natural number. -/
theorem dstParam_ok_nat {s : State} {n : Nat} {d : Int} (h : dstParam n s = .ok d) :
    ∃ k : Nat, d = (k : Int) ∧ k < s.mem.length := by
  obtain ⟨-, h0, h1⟩ := dstParam_eq_ok_iff.mp h
  exact ⟨d.toNat, by omega, by omega⟩

theorem raiseFatal_eq_faulted (c : FatalCondition) (s : State) : raiseFatal c s = Faulted s c.code c.info := rfl

/-- Every value an infinite source delivers lies in the cell range (rule R28). -/
theorem sourceValue_fits {cb : CellBits} (h : WidthAdmitted cb) (source k : Nat) :
    FitsCell cb (sourceValue cb source k) := by
  cases cb with
  | inf => trivial
  | bits n =>
    have hn : 0 < n := Nat.lt_of_lt_of_le (by decide) (show 16 ≤ n from h)
    exact ⟨BitVec.le_toInt _, BitVec.toInt_lt⟩

end Sys2Proof.Machine
end

