-- ==== Sys2Proof/Tests/Slice0.lean ====
section
/-! SUPPORT. Tests on fixed values. Expected results are the spec's: its examples, the vectors of 95_test_vectors.md
(named in the comments), or a word written out digit by digit from the formats of rule R89. The theorems
`test_hyp_<Statement>…` show that the hypotheses of an obligation can be met, clause by clause, at the edge of their
range. -/

open Sys2Proof Sys2Proof.Machine

namespace Sys2Proof.Tests

/-- A 64-bit instance right after Load of this image and this finite input. -/
def machine (image input : List Int) : State := State.ofImage (.bits 64) image (.values input)

/-- The largest value of a 64-bit cell (rule R22). -/
def cellMax64 : Int := 9223372036854775807

/-- The smallest value of a 64-bit cell (rule R22). -/
def cellMin64 : Int := -9223372036854775808

/-! ## Well-formedness: one ill-formed instruction for each check -/

theorem test_wellFormed_accepts : (Instr.add [0, 1]).wellFormed = true ∧ (Instr.halt []).wellFormed = true := by decide

theorem test_wellFormed_refuses_digit_ten : (Instr.add [10]).wellFormed = false := by decide

theorem test_wellFormed_refuses_leading_zero : (Instr.add [1, 0]).wellFormed = false := by decide

/-! ## Decoding, one word or more for each family, digit by digit: 10000 C + 1000 B + 100 A + opcode -/

theorem test_decode_add : decode (10000 * 1 + 1000 * 1 + 100 * 1 + 1) = .ok (.add [1, 1, 1]) := by decide

theorem test_decode_mul : decode (1000 * 1 + 100 * 0 + 2) = .ok (.mul [0, 1]) := by decide

theorem test_decode_inp : decode (100 * 1 + 3) = .ok (.inp [1]) := by decide

theorem test_decode_out : decode (100 * 1 + 4) = .ok (.out [1]) := by decide

theorem test_decode_jt : decode (1000 * 1 + 100 * 0 + 5) = .ok (.jt [0, 1]) := by decide

theorem test_decode_jf : decode (1000 * 0 + 100 * 1 + 6) = .ok (.jf [1]) := by decide

theorem test_decode_lt : decode (1000 * 2 + 100 * 1 + 7) = .ok (.lt [1, 2]) := by decide

theorem test_decode_eq : decode 8 = .ok (.eq []) := by decide

theorem test_decode_halt : decode 99 = .ok (.halt []) ∧ decode 1000099 = .ok (.halt [0, 0, 0, 0, 1]) := by decide

/-- Vectors D4, D6, D18, D19 and ILL1. -/
theorem test_decode_rejects :
    decode 0 = .error (.unknownOpcode 0) ∧ decode 100 = .error (.unknownOpcode 0) ∧
    decode 109 = .error (.unknownOpcode 9) ∧ decode 98 = .error (.unknownOpcode 98) ∧
    decode (-1) = .error (.negativeOperationCode (-1)) := by decide

/-- Vector D20: digits beyond the arity are kept. -/
theorem test_decoderBlock_large :
    decoderBlock 2147483647 = ⟨47, 6, 3, 8, [6, 3, 8, 4, 7, 4, 1, 2]⟩ := by decide

/-- Vector D21: the largest word at 64 bits. -/
theorem test_decode_largest :
    decode cellMax64 = .ok (.lt [8, 5, 7, 7, 4, 5, 8, 6, 3, 0, 2, 7, 3, 3, 2, 2, 9]) := by decide

/-- The bits the host numbers: the low 64 are the first cell. -/
theorem test_decodeTableWord :
    decodeTableWord 16 1101 = some (.add [1, 1]) ∧ decodeTableWord 64 (2 ^ 64 - 1) = none ∧
    decodeTableWord 256 (99 + 2 ^ 64 * 7) = some (.halt []) := by decide

/-- From reset with an instruction placed, the next Step runs it: `OUT` of the cell at address 0 appends the word. -/
theorem test_withFetchWord_runs :
    step (State.reset.withFetchWord 8 4) = .next { machine [4, 0, 0, 0] [] with out := [4], ip := 2 } := rfl

/-- With nothing placed, the first Step from reset finds no cell to fetch (assumption log 5). -/
theorem test_reset_step : step State.reset = .next (Faulted State.reset 2 0) := rfl

/-! ## One Step of each instruction -/

/-- Vector ADD3: position and immediate; the sum is stored over the HALT word. -/
theorem test_add_modes :
    step (machine [1001, 4, -99, 4, 99] []) = .next { machine [1001, 4, -99, 4, 0] [] with ip := 4 } := rfl

/-- Vector ADD8: one more than the largest value overflows and writes nothing. -/
theorem test_add_overflow :
    step (machine [1101, cellMax64, 1, 0, 99] []) =
      .next (Faulted (machine [1101, cellMax64, 1, 0, 99] []) 9 0) := rfl

/-- Vector MUL8: the smallest value is the product of a negative and a positive factor. -/
theorem test_mul_smallest :
    step (machine [1102, -4294967296, 2147483648, 0, 99] []) =
      .next { machine [cellMin64, -4294967296, 2147483648, 0, 99] [] with ip := 4 } := rfl

/-- Vector MUL9: the negation of the smallest value overflows. -/
theorem test_mul_overflow :
    step (machine [1102, cellMin64, -1, 0, 99] []) = .next (Faulted (machine [1102, cellMin64, -1, 0, 99] []) 9 0) := rfl

/-- Vector IN3: the mode digit of a destination is not consulted. -/
theorem test_inp_ignores_mode :
    step (machine [103, 2, 99] [-7]) = .next { machine [103, 2, -7] [-7] with cur := 1, ip := 2 } := rfl

/-- Vector IN8: a bad destination is met before the missing input. -/
theorem test_inp_destination_first : step (machine [3, 3, 99] []) = .next (Faulted (machine [3, 3, 99] []) 7 3) := rfl

/-- Vector OUT6: an immediate operand is not an address. -/
theorem test_out_immediate :
    step (machine [104, 1000, 99] []) = .next { machine [104, 1000, 99] [] with out := [1000], ip := 2 } := rfl

/-- Vector OUT8: mode digit 9. -/
theorem test_out_bad_mode : step (machine [904, 0, 99] []) = .next (Faulted (machine [904, 0, 99] []) 8 904) := rfl

/-- Rule R163: the jump not taken never looks for its second parameter. -/
theorem test_jt_not_taken : step (machine [1105, 0] []) = .next { machine [1105, 0] [] with ip := 3 } := rfl

/-- Vector PRI9: a negative target. -/
theorem test_jt_negative_target :
    step (machine [1105, 1, -1] []) = .next (Faulted (machine [1105, 1, -1] []) 5 (-1)) := rfl

/-- Vector JF10: a jump to itself. -/
theorem test_jf_taken : step (machine [1106, 0, 0] []) = .next (machine [1106, 0, 0] []) := rfl

/-- Vector JF8: the taken jump misses its second parameter. -/
theorem test_jf_missing_target : step (machine [1106, 0] []) = .next (Faulted (machine [1106, 0] []) 7 2) := rfl

/-- Vector LT6: the comparison is signed and overflows nowhere. -/
theorem test_lt_extremes :
    step (machine [1107, cellMin64, cellMax64, 0, 99] []) =
      .next { machine [1, cellMin64, cellMax64, 0, 99] [] with ip := 4 } := rfl

/-- Vector LT2: equal values are not less. -/
theorem test_lt_equal :
    step (machine [1107, 4, 4, 0, 99] []) = .next { machine [0, 4, 4, 0, 99] [] with ip := 4 } := rfl

/-- Vector EQ5: an immediate operand against the cell of the other one. -/
theorem test_eq_modes :
    step (machine [108, 8, 1, 0, 99] []) = .next { machine [1, 8, 1, 0, 99] [] with ip := 4 } := rfl

/-- Vector EQ2: values of opposite sign differ. -/
theorem test_eq_signs :
    step (machine [1108, 4, -4, 0, 99] []) = .next { machine [0, 4, -4, 0, 99] [] with ip := 4 } := rfl

/-- Vector ILL10: a mode digit on HALT is ignored, and the pointer stays. -/
theorem test_halt : step (machine [299] []) = .next { machine [299] [] with status := .halted } := rfl

/-! ## The order of the checks -/

/-- Vector PRI1: the missing parameter cell before the bad mode digit. -/
theorem test_priority_cell_before_mode : step (machine [201] []) = .next (Faulted (machine [201] []) 7 1) := rfl

/-- Vector PRI3: the destination before the overflow. -/
theorem test_priority_destination_before_overflow :
    step (machine [1101, cellMax64, 1, 9, 99] []) = .next (Faulted (machine [1101, cellMax64, 1, 9, 99] []) 7 9) := rfl

/-- Vector PRI4: parameter 2 before the destination. -/
theorem test_priority_parameter_before_destination :
    step (machine [2101, 1, 0, 9, 99] []) = .next (Faulted (machine [2101, 1, 0, 9, 99] []) 8 2101) := rfl

/-- Vector PRI7: the sign of the word before anything else. -/
theorem test_priority_sign_first : step (machine [-5, 9] []) = .next (Faulted (machine [-5, 9] []) 3 (-5)) := rfl

/-! ## Program text (vectors LD3, LD4, LD5, LD6, LD13, LD15, LD16, LD20, LD22) -/

theorem test_load_line_breaks :
    parseProgram (.bits 64) ['1', ',', '0', ',', '\n', '0', ',', '0', ',', '\r', '\n', '9', '9'] = some [1, 0, 0, 0, 99] ∧
    parseProgram (.bits 64) ['1', '2', '\n', '3', ',', '4'] = some [123, 4] := by decide

theorem test_load_blanks_and_zeros :
    parseProgram (.bits 64) [' ', '1', ' ', ',', '\t', '2'] = some [1, 2] ∧
    parseProgram (.bits 64) ['-', '0', ',', '0', '0', '7'] = some [0, 7] := by decide

theorem test_load_refuses :
    parseProgram (.bits 64) ['1', ',', '2', ','] = none ∧ parseProgram (.bits 64) ['+', '1'] = none ∧
    parseProgram (.bits 64) ['1', ' ', '2'] = none ∧ parseProgram (.bits 64) ['-'] = none := by decide

theorem test_load_range :
    parseProgram (.bits 16) ['3', '2', '7', '6', '8'] = none ∧
    parseProgram (.bits 16) ['-', '3', '2', '7', '6', '8'] = some [-32768] ∧
    parseProgram .inf ['3', '2', '7', '6', '8'] = some [32768] := by decide

theorem test_load_result :
    load (.bits 64) ['3', ',', '0', ',', '9', '9'] (.values [42]) = .ok (machine [3, 0, 99] [42]) := rfl

theorem test_load_malformed : load (.bits 64) [] (.values []) = .error (.fatal .malformedProgram) := rfl

/-! ## Hypotheses that can be met: encoding and decoding -/

theorem test_hyp_DecodeInvertsEncode : (Instr.jf [9, 0, 1]).wellFormed = true := by decide

theorem test_hyp_EncodeInvertsDecode : decode 1101 = .ok (.add [1, 1]) := by decide

theorem test_hyp_DecoderReturnsOpcodeAndDigits :
    1 < (decodeWord 1002).modes.length ∧ 99 < 100 ∧ (decodeWord 99).modes = [] ∧ 100 ≤ 100 ∧
    (decodeWord 100).modes = [1] := by decide

theorem test_hyp_ModeAccessorIsTheDigit :
    1 < (decodeWord 1002).modes.length ∧ (decodeWord 1002).modes.length ≤ 2 := by decide

theorem test_hyp_LengthDependsOnOpcodeAlone :
    (decode ((11107 : Nat) : Int) = .ok (.lt [1, 1, 1]) ∧ 11107 % 100 = 7) ∧
    (decode ((3 : Nat) : Int) = .ok (.inp []) ∧ 3 % 100 = 3) ∧
    (decode ((106 : Nat) : Int) = .ok (.jf [1]) ∧ 106 % 100 = 6) ∧
    (decode ((199 : Nat) : Int) = .ok (.halt [1]) ∧ 199 % 100 = 99) := by decide

theorem test_hyp_LengthDependsOnOpcodeAlone_advance :
    decode ((104 : Nat) : Int) = .ok (.out [1]) ∧ (machine [104, 1] []).status = .running ∧
    exec (.out [1]) (machine [104, 1] []) = .next { machine [104, 1] [] with out := [1], ip := 2 } ∧
    ({ machine [104, 1] [] with out := [1], ip := 2 } : State).status = .running := ⟨by decide, rfl, rfl, rfl⟩

theorem test_hyp_ListingLinesEncodeTheirInstruction :
    (ListingLine.eq (.position 8) (.immediate 1) 0, 8) ∈
      [(ListingLine.add (.position 8) (.immediate 1) 0, 1), (.mul (.position 8) (.immediate 1) 0, 2),
        (.lt (.position 8) (.immediate 1) 0, 7), (.eq (.position 8) (.immediate 1) 0, 8)] ∧
    (ListingLine.jf (.immediate 0) (.immediate 4), 6) ∈
      [(ListingLine.jt (.immediate 0) (.immediate 4), 5), (.jf (.immediate 0) (.immediate 4), 6)] := by decide

/-! ## Hypotheses that can be met: memory and operands -/

theorem test_hyp_MemReadIsBounded :
    (-1 : Int) < 0 ∧ (([7, 8] : List Int).length : Int) ≤ 2 ∧ 1 < ([7, 8] : List Int).length := by decide

theorem test_hyp_MemWriteSetsOneCell :
    (-1 : Int) < 0 ∧ (([7, 8] : List Int).length : Int) ≤ 2 ∧ 1 < ([7, 8] : List Int).length ∧
    dstParam 3 (machine [1, 0, 0, 4, 99] []) = .ok 4 := by decide

theorem test_hyp_RawFetchesTheParameterCell :
    (machine [1, 0] []).mem.length ≤ (machine [1, 0] []).ip + 2 ∧
    (machine [1, 0] []).ip + 1 < (machine [1, 0] []).mem.length := by decide

/-- The last cell by position, and an immediate operand. -/
theorem test_hyp_ReadAppliesTheMode_delivers :
    ParamReads (.out []) (machine [4, 2, 99] []) 1 99 ∧ ParamReads (.out [1]) (machine [104, -1, 99] []) 1 (-1) :=
  ⟨paramReads_iff.mpr rfl, paramReads_iff.mpr rfl⟩

/-- The missing cell, the smallest bad mode digit, and the two addresses next to memory. -/
theorem test_hyp_ReadAppliesTheMode_raises :
    ParamFaults (.out [2]) (machine [204] []) 1 (.memoryOutOfBounds 1) ∧
    ParamFaults (.out [2]) (machine [204, 0] []) 1 (.invalidParameterMode 204) ∧
    ParamFaults (.out []) (machine [4, 2] []) 1 (.memoryOutOfBounds 2) ∧
    ParamFaults (.out []) (machine [4, -1] []) 1 (.memoryOutOfBounds (-1)) :=
  ⟨paramFaults_iff.mpr rfl, paramFaults_iff.mpr rfl, paramFaults_iff.mpr rfl, paramFaults_iff.mpr rfl⟩

theorem test_hyp_DestinationIsTheOperand :
    DestinationIs (machine [3, 1] []) 1 1 ∧ DestinationIs (machine [3, 0] []) 1 0 ∧
    DestinationFaults (machine [3] []) 1 (.memoryOutOfBounds 1) ∧
    DestinationFaults (machine [3, 2] []) 1 (.memoryOutOfBounds 2) ∧
    DestinationFaults (machine [3, -1] []) 1 (.memoryOutOfBounds (-1)) :=
  ⟨destinationIs_iff.mpr rfl, destinationIs_iff.mpr rfl, destinationFaults_iff.mpr rfl, destinationFaults_iff.mpr rfl,
    destinationFaults_iff.mpr rfl⟩

theorem test_hyp_InputPullTakesTheNextValue :
    ((machine [99] [5]).input = .values [5] ∧ ([5] : List Int)[(machine [99] [5]).cur]? = some 5) ∧
    ((machine [99] []).input = .values [] ∧ ([] : List Int).length ≤ (machine [99] []).cur) ∧
    (State.ofImage .inf [99] (.source 3)).input = .source 3 := by decide

/-! ## Hypotheses that can be met: the nine instructions -/

/-- The largest sum that fits, and the least that does not (vectors ADD7, ADD8). -/
theorem test_hyp_AddStoresTheExactSum :
    (FourCellOperands (.add [1, 1]) (machine [1101, cellMax64 - 1, 1, 0, 99] []) (cellMax64 - 1) 1 0 ∧
      FitsCell (.bits 64) (cellMax64 - 1 + 1)) ∧
    (FourCellOperands (.add [1, 1]) (machine [1101, cellMax64, 1, 0, 99] []) cellMax64 1 0 ∧
      ¬FitsCell (.bits 64) (cellMax64 + 1)) ∧
    FourCellFaults (.add []) (machine [1, 0, 0] []) (.memoryOutOfBounds 3) := by
  refine ⟨⟨⟨paramReads_iff.mpr rfl, paramReads_iff.mpr rfl, destinationIs_iff.mpr rfl⟩, ?_⟩,
    ⟨⟨paramReads_iff.mpr rfl, paramReads_iff.mpr rfl, destinationIs_iff.mpr rfl⟩, ?_⟩,
    .inr ⟨1, paramReads_iff.mpr rfl, .inr ⟨1, paramReads_iff.mpr rfl, destinationFaults_iff.mpr rfl⟩⟩⟩ <;>
  simp [FitsCell, cellMax64]

/-- Vectors MUL8 and MUL7, and MUL12's bad mode digit on parameter 2. -/
theorem test_hyp_MulStoresTheExactProduct :
    (FourCellOperands (.mul [1, 1]) (machine [1102, -4294967296, 2147483648, 0, 99] []) (-4294967296) 2147483648 0 ∧
      FitsCell (.bits 64) (-4294967296 * 2147483648)) ∧
    (FourCellOperands (.mul [1, 1]) (machine [1102, 4294967296, 2147483648, 0, 99] []) 4294967296 2147483648 0 ∧
      ¬FitsCell (.bits 64) (4294967296 * 2147483648)) ∧
    FourCellFaults (.mul [0, 2]) (machine [2002, 0, 0, 0, 99] []) (.invalidParameterMode 2002) := by
  refine ⟨⟨⟨paramReads_iff.mpr rfl, paramReads_iff.mpr rfl, destinationIs_iff.mpr rfl⟩, ?_⟩,
    ⟨⟨paramReads_iff.mpr rfl, paramReads_iff.mpr rfl, destinationIs_iff.mpr rfl⟩, ?_⟩,
    .inr ⟨2002, paramReads_iff.mpr rfl, .inl (paramFaults_iff.mpr rfl)⟩⟩ <;>
  simp [FitsCell]

theorem test_hyp_InStoresTheNextInput :
    (DestinationIs (machine [3, 1] [42]) 1 1 ∧ (machine [3, 1] [42]).input.valueAt (.bits 64) 0 = some 42) ∧
    (DestinationIs (machine [3, 0] []) 1 0 ∧ (machine [3, 0] []).input.valueAt (.bits 64) 0 = none) ∧
    DestinationFaults (machine [3, 2] [42]) 1 (.memoryOutOfBounds 2) :=
  ⟨⟨destinationIs_iff.mpr rfl, rfl⟩, ⟨destinationIs_iff.mpr rfl, rfl⟩, destinationFaults_iff.mpr rfl⟩

theorem test_hyp_OutAppendsTheOperand :
    ParamReads (.out []) (machine [4, 2, 99] []) 1 99 ∧
    ParamFaults (.out []) (machine [4, 3, 99] []) 1 (.memoryOutOfBounds 3) :=
  ⟨paramReads_iff.mpr rfl, paramFaults_iff.mpr rfl⟩

/-- JT taken to 0; not taken with nothing behind; its two parameters missing; the largest negative target. -/
theorem test_hyp_JtJumpsOnNonZero :
    (ParamReads (.jt [1, 1]) (machine [1105, -1, 0] []) 1 (-1) ∧ (-1 : Int) ≠ 0 ∧
      ParamReads (.jt [1, 1]) (machine [1105, -1, 0] []) 2 ((0 : Nat) : Int)) ∧
    ParamReads (.jt [1, 1]) (machine [1105, 0] []) 1 0 ∧
    ParamFaults (.jt [1, 1]) (machine [1105] []) 1 (.memoryOutOfBounds 1) ∧
    (ParamReads (.jt [1, 1]) (machine [1105, 1] []) 1 1 ∧ (1 : Int) ≠ 0 ∧
      ParamFaults (.jt [1, 1]) (machine [1105, 1] []) 2 (.memoryOutOfBounds 2)) ∧
    (ParamReads (.jt [1, 1]) (machine [1105, 1, -1] []) 2 (-1) ∧ (-1 : Int) < 0) :=
  ⟨⟨paramReads_iff.mpr rfl, by decide, paramReads_iff.mpr rfl⟩, paramReads_iff.mpr rfl, paramFaults_iff.mpr rfl,
    ⟨paramReads_iff.mpr rfl, by decide, paramFaults_iff.mpr rfl⟩, paramReads_iff.mpr rfl, by decide⟩

/-- The same of JF. -/
theorem test_hyp_JfJumpsOnZero :
    (ParamReads (.jf [1, 1]) (machine [1106, 0, 0] []) 1 0 ∧
      ParamReads (.jf [1, 1]) (machine [1106, 0, 0] []) 2 ((0 : Nat) : Int)) ∧
    (ParamReads (.jf [1, 1]) (machine [1106, 1] []) 1 1 ∧ (1 : Int) ≠ 0) ∧
    ParamFaults (.jf [1, 1]) (machine [1106] []) 1 (.memoryOutOfBounds 1) ∧
    (ParamReads (.jf [1, 1]) (machine [1106, 0] []) 1 0 ∧
      ParamFaults (.jf [1, 1]) (machine [1106, 0] []) 2 (.memoryOutOfBounds 2)) ∧
    (ParamReads (.jf [1, 1]) (machine [1106, 0, -1] []) 1 0 ∧
      ParamReads (.jf [1, 1]) (machine [1106, 0, -1] []) 2 (-1) ∧ (-1 : Int) < 0) :=
  ⟨⟨paramReads_iff.mpr rfl, paramReads_iff.mpr rfl⟩, ⟨paramReads_iff.mpr rfl, by decide⟩, paramFaults_iff.mpr rfl,
    ⟨paramReads_iff.mpr rfl, paramFaults_iff.mpr rfl⟩, paramReads_iff.mpr rfl, paramReads_iff.mpr rfl, by decide⟩

theorem test_hyp_LtStoresOneOrZero :
    (FourCellOperands (.lt [1, 1]) (machine [1107, 3, 4, 0, 99] []) 3 4 0 ∧ (3 : Int) < 4) ∧
    (FourCellOperands (.lt [1, 1]) (machine [1107, 4, 4, 0, 99] []) 4 4 0 ∧ ¬(4 : Int) < 4) ∧
    FourCellFaults (.lt [1, 1]) (machine [1107, 1, 2, 5, 99] []) (.memoryOutOfBounds 5) :=
  ⟨⟨⟨paramReads_iff.mpr rfl, paramReads_iff.mpr rfl, destinationIs_iff.mpr rfl⟩, by decide⟩,
    ⟨⟨paramReads_iff.mpr rfl, paramReads_iff.mpr rfl, destinationIs_iff.mpr rfl⟩, by decide⟩,
    .inr ⟨1, paramReads_iff.mpr rfl, .inr ⟨2, paramReads_iff.mpr rfl, destinationFaults_iff.mpr rfl⟩⟩⟩

theorem test_hyp_EqStoresOneOrZero :
    FourCellOperands (.eq [1, 1]) (machine [1108, 4, 4, 0, 99] []) 4 4 0 ∧
    (FourCellOperands (.eq [1, 1]) (machine [1108, 4, 5, 0, 99] []) 4 5 0 ∧ (4 : Int) ≠ 5) ∧
    FourCellFaults (.eq [2]) (machine [208, 1, 2, 5, 99] []) (.invalidParameterMode 208) :=
  ⟨⟨paramReads_iff.mpr rfl, paramReads_iff.mpr rfl, destinationIs_iff.mpr rfl⟩,
    ⟨⟨paramReads_iff.mpr rfl, paramReads_iff.mpr rfl, destinationIs_iff.mpr rfl⟩, by decide⟩,
    .inl (paramFaults_iff.mpr rfl)⟩

theorem test_hyp_HaltStopsTheEngine :
    (machine [299] []).status = .running ∧ (machine [299] []).mem[(machine [299] []).ip]? = some 299 ∧
    decode 299 = .ok (.halt [2]) := by decide

/-- A product that does not fit; an unbounded cell; and a sum that is stored. -/
theorem test_hyp_ArithmeticNeverWraps :
    (FourCellOperands (.mul [1, 1]) (machine [1102, cellMax64, 2, 0, 99] []) cellMax64 2 0 ∧
      ¬FitsCell (.bits 64) (cellMax64 * 2)) ∧
    (FourCellOperands (.add [1, 1]) (State.ofImage .inf [1101, cellMax64, 1, 0] (.values [])) cellMax64 1 0 ∧
      (State.ofImage .inf [1101, cellMax64, 1, 0] (.values [])).cellBits = .inf) ∧
    (FourCellOperands (.add [1, 1]) (machine [1101, 2, 3, 0] []) 2 3 0 ∧
      exec (.add [1, 1]) (machine [1101, 2, 3, 0] []) = .next { machine [5, 2, 3, 0] [] with ip := 4 } ∧
      (machine [5, 2, 3, 0] []).mem ≠ (machine [1101, 2, 3, 0] []).mem) := by
  refine ⟨⟨⟨paramReads_iff.mpr rfl, paramReads_iff.mpr rfl, destinationIs_iff.mpr rfl⟩, by simp [FitsCell, cellMax64]⟩,
    ⟨⟨paramReads_iff.mpr rfl, paramReads_iff.mpr rfl, destinationIs_iff.mpr rfl⟩, rfl⟩,
    ⟨paramReads_iff.mpr rfl, paramReads_iff.mpr rfl, destinationIs_iff.mpr rfl⟩, rfl, by decide⟩

/-- A target equal to `MEM_LEN`, by JT; the last address, which holds a HALT, by JF; a negative target. -/
theorem test_hyp_JumpTargetIsCheckedAtTheFetch :
    (ParamReads (.jt [1, 1]) (machine [1105, 1, 3] []) 1 1 ∧ (1 : Int) ≠ 0 ∧
      ParamReads (.jt [1, 1]) (machine [1105, 1, 3] []) 2 ((3 : Nat) : Int) ∧
      (machine [1105, 1, 3] []).status = .running ∧ (machine [1105, 1, 3] []).mem.length ≤ 3) ∧
    (ParamReads (.jf [1, 1]) (machine [1106, 0, 3, 99] []) 1 0 ∧
      ParamReads (.jf [1, 1]) (machine [1106, 0, 3, 99] []) 2 ((3 : Nat) : Int) ∧
      (machine [1106, 0, 3, 99] []).mem[3]? = some 99 ∧ decode 99 = .ok (.halt [])) ∧
    (ParamReads (.jt [1, 1]) (machine [1105, 1, -1] []) 1 1 ∧
      ParamReads (.jt [1, 1]) (machine [1105, 1, -1] []) 2 (-1) ∧ (-1 : Int) < 0) :=
  ⟨⟨paramReads_iff.mpr rfl, by decide, paramReads_iff.mpr rfl, rfl, by decide⟩,
    ⟨paramReads_iff.mpr rfl, paramReads_iff.mpr rfl, rfl, by decide⟩, paramReads_iff.mpr rfl, paramReads_iff.mpr rfl,
    by decide⟩

theorem test_hyp_UntakenJumpIgnoresItsTarget :
    ParamReads (.jt [1, 1]) (machine [1105, 0] []) 1 0 ∧
    (ParamReads (.jf [1, 1]) (machine [1106, 1] []) 1 1 ∧ (1 : Int) ≠ 0) :=
  ⟨paramReads_iff.mpr rfl, paramReads_iff.mpr rfl, by decide⟩

/-- Two lists that agree on the digits consulted and differ in the third. -/
theorem test_hyp_UnconsultedDigitsAreIgnored :
    modeAt [1, 1, 7] 0 ≤ 1 ∧ modeAt [1, 1] 0 = modeAt [1, 1, 7] 0 ∧ modeAt [1, 1, 7] 1 ≤ 1 ∧
    modeAt [1, 1] 1 = modeAt [1, 1, 7] 1 ∧ ([1, 1, 7] : ModeDigits) ≠ [1, 1] := by decide

/-! ## Hypotheses that can be met: frames -/

/-- An ADD that stores at the last address it may, and an IN whose destination raises. -/
theorem test_hyp_FrameOfStoringInstructions :
    ((Instr.add [1, 1], 3) ∈ [(Instr.add [1, 1], 3), (.mul [1, 1], 3), (.lt [1, 1], 3), (.eq [1, 1], 3), (.inp [1, 1], 1)] ∧
      exec (.add [1, 1]) (machine [1101, 2, 3, 4, 99] []) = .next { machine [1101, 2, 3, 4, 5] [] with ip := 4 } ∧
      dstParam 3 (machine [1101, 2, 3, 4, 99] []) = .ok 4 ∧ ((3 : Nat) : Int) ≠ 4) ∧
    ((Instr.inp [], 1) ∈ [(Instr.add [], 3), (.mul [], 3), (.lt [], 3), (.eq [], 3), (.inp [], 1)] ∧
      exec (.inp []) (machine [3, 2] []) = .next (Faulted (machine [3, 2] []) 7 2) ∧
      dstParam 1 (machine [3, 2] []) = .error (.memoryOutOfBounds 2)) :=
  ⟨⟨by decide, rfl, rfl, by decide⟩, by decide, rfl, rfl⟩

theorem test_hyp_FrameOfOut :
    exec (.out [1]) (machine [104, -5] []) = .next { machine [104, -5] [] with out := [-5], ip := 2 } := rfl

theorem test_hyp_FrameOfJumps :
    exec (.jt [1, 1]) (machine [1105, 1, 0] []) = .next (machine [1105, 1, 0] []) ∧
    exec (.jf [1, 1]) (machine [1106, 1, 0] []) = .next { machine [1106, 1, 0] [] with ip := 3 } := ⟨rfl, rfl⟩

theorem test_hyp_FrameOfHalt :
    exec (.halt []) (machine [99] []) = .next { machine [99] [] with status := .halted } := rfl

/-! ## Hypotheses that can be met: the Step -/

theorem test_hyp_StepRunsTheDecodedInstruction :
    (machine [104, -5] []).status = .running ∧ (machine [104, -5] []).mem[(machine [104, -5] []).ip]? = some 104 ∧
    decode 104 = .ok (.out [1]) := by decide

theorem test_hyp_EndedStepDoesNothing :
    ({ machine [99] [] with status := .halted } : State).status = .halted ∧
    (Faulted (machine [99] []) 6 0).status = .faulted := by decide

theorem test_hyp_PointerOutsideMemoryFaults :
    ({ machine [99] [] with ip := 1 } : State).status = .running ∧
    ({ machine [99] [] with ip := 1 } : State).mem.length ≤ ({ machine [99] [] with ip := 1 } : State).ip := by decide

theorem test_hyp_NegativeWordFaults :
    (machine [-1] []).status = .running ∧ (machine [-1] []).mem[(machine [-1] []).ip]? = some (-1) ∧ (-1 : Int) < 0 := by
  decide

/-- The edges of the illegal opcodes, and a legal one. -/
theorem test_hyp_IllegalOpcodeFaults :
    (machine [98] []).status = .running ∧ (machine [98] []).mem[(machine [98] []).ip]? = some ((98 : Nat) : Int) ∧
    (9 ≤ 98 % 100 ∧ 98 % 100 ≤ 98) ∧ (machine [100] []).mem[(machine [100] []).ip]? = some ((100 : Nat) : Int) ∧
    100 % 100 = 0 ∧ ¬(8 % 100 = 0 ∨ (9 ≤ 8 % 100 ∧ 8 % 100 ≤ 98)) := by decide

theorem test_hyp_InvalidModeDigitFaults :
    ((machine [201, 0] []).mem[(machine [201, 0] []).ip + 1]? = some 0 ∧ 2 ≤ modeAt [2] 0) ∧
    (ParamReads (.add [1, 2]) (machine [2101, 5, 0] []) 1 5 ∧
      (machine [2101, 5, 0] []).mem[(machine [2101, 5, 0] []).ip + 2]? = some 0 ∧ 2 ≤ modeAt [1, 2] 1) ∧
    (ParamReads (.jt [1, 2]) (machine [2105, 5, 0] []) 1 5 ∧ (5 : Int) ≠ 0) ∧
    ParamReads (.jf [1, 2]) (machine [2106, 0, 0] []) 1 0 ∧
    ((machine [903, 9] []).status = .running ∧
      exec (.inp [9]) (machine [903, 9] []) = .next (Faulted (machine [903, 9] []) 7 9)) :=
  ⟨⟨rfl, by decide⟩, ⟨paramReads_iff.mpr rfl, rfl, by decide⟩, ⟨paramReads_iff.mpr rfl, by decide⟩,
    paramReads_iff.mpr rfl, rfl, rfl⟩

theorem test_hyp_FaultEntryWritesOnlyTheRecord :
    (machine [3, 0] []).status = .running ∧ step (machine [3, 0] []) = .next (Faulted (machine [3, 0] []) 6 0) ∧
    (Faulted (machine [3, 0] []) 6 0).status = .faulted := ⟨rfl, rfl, rfl⟩

/-- The hypotheses of PointerAfterAnInstruction, InstructionCommitsOnce and FaultCausesByInstruction: an instruction
that completes and one that raises. -/
theorem test_hyp_PointerAfterAnInstruction :
    ((machine [104, -5] []).status = .running ∧
      exec (.out [1]) (machine [104, -5] []) = .next { machine [104, -5] [] with out := [-5], ip := 2 } ∧
      ({ machine [104, -5] [] with out := [-5], ip := 2 } : State).status ≠ .faulted) ∧
    ((machine [104] []).status = .running ∧
      exec (.out [1]) (machine [104] []) = .next (Faulted (machine [104] []) 7 1) ∧
      (Faulted (machine [104] []) 7 1).status = .faulted) :=
  ⟨⟨rfl, rfl, by decide⟩, rfl, rfl, rfl⟩

theorem test_hyp_InstructionCommitsOnce :
    (machine [1108, 1, 1, 4, 0] []).status = .running ∧
    exec (.eq [1, 1]) (machine [1108, 1, 1, 4, 0] []) = .next { machine [1108, 1, 1, 4, 1] [] with ip := 4 } ∧
    ({ machine [1108, 1, 1, 4, 1] [] with ip := 4 } : State).status ≠ .faulted := ⟨rfl, rfl, by decide⟩

theorem test_hyp_ResponseSaysWhatTheStepDid :
    ({ machine [99] [] with status := .halted } : State).status = .halted ∧
    (Faulted (machine [99] []) 6 0).status = .faulted ∧ (machine [104, 1] []).status = .running ∧
    (stepRequest (machine [104, 1] [])).1 = .continues := by decide

/-- A fetch that raises, and a text that does not load. -/
theorem test_hyp_FaultCausesByInstruction :
    (machine [0] []).status = .running ∧
    (∀ w i, (machine [0] []).mem[(machine [0] []).ip]? = some w → decode w ≠ .ok i) ∧
    step (machine [0] []) = .next (Faulted (machine [0] []) 4 0) ∧
    load (.bits 64) [','] (.values []) = .error (.fatal .malformedProgram) := by
  refine ⟨rfl, ?_, rfl, rfl⟩
  intro w i h
  have h : (0 : Int) = w := Option.some.inj h
  subst h
  intro h
  cases h

/-- Each storing instruction stores on the cell just behind itself: ADD a HALT word (so the next Step halts), MUL, LT,
EQ and IN; and ADD stores on its own last cell, and EQ where the next instruction's first parameter stands. -/
theorem test_hyp_SelfModificationIsSeenByTheNextFetch :
    ((machine [1101, 50, 49, 4, 0] []).status = .running ∧
      (machine [1101, 50, 49, 4, 0] []).mem[(machine [1101, 50, 49, 4, 0] []).ip]? = some 1101 ∧
      decode 1101 = .ok (.add [1, 1]) ∧ Stores (.add [1, 1]) (machine [1101, 50, 49, 4, 0] []) 4 99 ∧
      4 = (machine [1101, 50, 49, 4, 0] []).ip + 4 ∧ decode 99 = .ok (.halt [])) ∧
    (decode 1102 = .ok (.mul [1, 1]) ∧ Stores (.mul [1, 1]) (machine [1102, 33, 3, 4, 0] []) 4 99) ∧
    (decode 1107 = .ok (.lt [1, 1]) ∧ Stores (.lt [1, 1]) (machine [1107, 1, 2, 4, 0] []) 4 1 ∧
      Stores (.lt [1, 1]) (machine [1107, 2, 2, 4, 7] []) 4 0) ∧
    (decode 1108 = .ok (.eq [1, 1]) ∧ Stores (.eq [1, 1]) (machine [1108, 2, 2, 5, 104, 0] []) 5 1 ∧
      Stores (.eq [1, 1]) (machine [1108, 1, 2, 4, 7] []) 4 0) ∧
    (decode 3 = .ok (.inp []) ∧ Stores (.inp []) (machine [3, 2, 0] [99]) 2 99) ∧
    Stores (.add [1, 1]) (machine [1101, 50, 49, 3] []) 3 99 := by
  have four : ∀ {i : Instr} {s : State} {a b : Int} {d : Nat}, readParam i 1 s = .ok a → readParam i 2 s = .ok b →
      dstParam 3 s = .ok (d : Int) → FourCellOperands i s a b d := fun h1 h2 h3 =>
    ⟨paramReads_iff.mpr h1, paramReads_iff.mpr h2, destinationIs_iff.mpr h3⟩
  exact ⟨⟨rfl, rfl, by decide, ⟨50, 49, four rfl rfl rfl, rfl, by simp [FitsCell, machine, State.ofImage]⟩, rfl,
      by decide⟩,
    ⟨by decide, 33, 3, four rfl rfl rfl, rfl, by simp [FitsCell, machine, State.ofImage]⟩,
    ⟨by decide, ⟨1, 2, four rfl rfl rfl, .inl ⟨by decide, rfl⟩⟩, 2, 2, four rfl rfl rfl, .inr ⟨by decide, rfl⟩⟩,
    ⟨by decide, ⟨2, 2, four rfl rfl rfl, .inl ⟨rfl, rfl⟩⟩, 1, 2, four rfl rfl rfl, .inr ⟨by decide, rfl⟩⟩,
    ⟨by decide, destinationIs_iff.mpr rfl, rfl⟩,
    50, 49, four rfl rfl rfl, rfl, by simp [FitsCell, machine, State.ofImage]⟩

/-! ## Hypotheses that can be met: runs, the invariant, Load -/

theorem test_hyp_RunIsRepeatedStep :
    step (machine [99] []) = .next { machine [99] [] with status := .halted } ∧
    ({ machine [99] [] with status := .halted } : State).ended = true := ⟨rfl, rfl⟩

theorem test_hyp_HaltedRunStandsAtAHaltWord :
    (machine [104, 1, 99] []).status = .running ∧ (runFuel 2 (machine [104, 1, 99] [])).status = .halted := by decide

/-- A state with the invariant and its next state: a 64-bit instance that reads and stores an input. -/
theorem test_hyp_StepKeepsTheInvariant :
    (machine [3, 0] [42]).Inv ∧ step (machine [3, 0] [42]) = .next { machine [42, 0] [42] with cur := 1, ip := 2 } := by
  refine ⟨⟨?_, ?_, ?_, ?_, ?_, ?_, ?_⟩, rfl⟩
  · show 16 ≤ 64; decide
  · simp [machine, State.ofImage, FitsCell]
  · intro k v h
    have hv : v ∈ ([42] : List Int) := List.mem_of_getElem? h
    rw [List.mem_singleton.mp hv]
    simp [machine, State.ofImage, FitsCell]
  · simp [machine, State.ofImage]
  · intro vs _; exact Nat.zero_le _
  · exact fun _ => ⟨rfl, rfl⟩
  · intro h; cases h

/-- A text of one cell, the least that loads, and one that does not parse. -/
theorem test_hyp_LoadGivesTheResetValues :
    load (.bits 16) ['9', '9'] (.values [7]) = .ok (State.ofImage (.bits 16) [99] (.values [7])) ∧
    ([99] : List Int)[0]? = some 99 ∧ decode 99 = .ok (.halt []) ∧
    WidthAdmitted (.bits 16) ∧ parseProgram (.bits 16) ['9', ',', ',', '9'] = none :=
  ⟨rfl, rfl, by decide, by show 16 ≤ 16; decide, by decide⟩

/-- A text of the largest 16-bit value, with an input that holds it. -/
theorem test_hyp_LoadGivesTheResetValues_answers :
    WidthAdmitted (.bits 16) ∧ parseProgram (.bits 16) ['3', '2', '7', '6', '7'] = some [32767] ∧
    (∀ k v, (Input.values [32767]).valueAt (.bits 16) k = some v → FitsCell (.bits 16) v) := by
  refine ⟨by show 16 ≤ 16; decide, by decide, fun k v h => ?_⟩
  have hv : v ∈ ([32767] : List Int) := List.mem_of_getElem? h
  rw [List.mem_singleton.mp hv]
  simp [FitsCell]

theorem test_hyp_LoadEstablishesTheInvariant :
    load .inf ['-', '1'] (.source 0) = .ok (State.ofImage .inf [-1] (.source 0)) := rfl

theorem test_hyp_ProgramTextParsesBack :
    ([-32768, 32767] : List Int) ≠ [] ∧ ∀ v ∈ ([-32768, 32767] : List Int), FitsCell (.bits 16) v := by
  simp [FitsCell]

theorem test_hyp_LineBreaksAreRemoved : '\n' = '\n' ∨ '\n' = '\r' := by decide

theorem test_hyp_CommasSeparateTokens :
    parseProgram (.bits 64) ['1'] = some [1] ∧ parseProgram (.bits 64) ['2', ',', '3'] = some [2, 3] ∧
    parseProgram (.bits 64) [] = none ∧ ('\t' = ' ' ∨ '\t' = '\t') := by decide

/-- A text with no comma and no line break that is a token, the smallest 16-bit value. -/
theorem test_hyp_CommasSeparateTokens_token :
    (∀ c ∈ [' ', '-', '3', '2', '7', '6', '8'], c ≠ ',' ∧ c ≠ '\n' ∧ c ≠ '\r') ∧
    TokenIs [' ', '-', '3', '2', '7', '6', '8'] (-32768) ∧ FitsCell (.bits 16) (-32768) :=
  ⟨by simp, ⟨[' '], ['3', '2', '7', '6', '8'], [], true, by simp, by simp, by simp, by simp,
      by simp [digitsTextValue]⟩, by simp [FitsCell]⟩

theorem test_hyp_OutputIsNeverReadBack :
    step (machine [104, 1] []) = .next { machine [104, 1] [] with out := [1], ip := 2 } := rfl

/-- Another input with the same value at the cursor. -/
theorem test_hyp_InputIsReadOnlyAtTheCursor :
    (Input.values [42, 7]).valueAt (.bits 64) (machine [3, 0] [42]).cur =
      (machine [3, 0] [42]).input.valueAt (.bits 64) (machine [3, 0] [42]).cur ∧
    step (machine [3, 0] [42]) = .next { machine [42, 0] [42] with cur := 1, ip := 2 } := ⟨rfl, rfl⟩

/-- A 16-bit run whose sum is the largest that fits. -/
theorem test_hyp_WidthShowsOnlyInOverflow :
    (State.ofImage (.bits 16) [1101, 32766, 1, 0, 99] (.values [])).cellBits = .bits 16 ∧ WidthAdmitted .inf ∧
    (State.ofImage (.bits 16) [1101, 32766, 1, 0, 99] (.values [])).input = .values [] ∧
    (State.ofImage (.bits 16) [1101, 32766, 1, 0, 99] (.values [])).fcause ≠ 9 ∧
    (runFuel 2 (State.ofImage (.bits 16) [1101, 32766, 1, 0, 99] (.values []))).fcause ≠ 9 :=
  ⟨rfl, trivial, rfl, by decide, by decide⟩

end Sys2Proof.Tests
end

section
/-! PROOFS. Scope and configuration: what every Step keeps fixed, and how the width of a cell shows in a Step.
Settles O48 and O60. -/

namespace Sys2Proof.Machine

/-! ## Runs

A run is carried by its Steps: what every Step keeps, every run keeps. -/

theorem response_eq_continues_iff {s : State} : response s = .continues ↔ s.status = .running := by
  unfold response
  cases s.status <;> simp

/-- Run goes on exactly while the engine is running (rule R124). -/
theorem runFuel_succ (k : Nat) (s : State) :
    runFuel (k + 1) s = if s.after.status = .running then runFuel k s.after else s.after := by
  rw [runFuel]
  simp only [← response_eq_continues_iff]
  cases response s.after <;> rfl

/-- The induction over a run: what holds of its first state and is kept by every Step holds of its last. -/
theorem runFuel_induction {P : State → Prop} (hstep : ∀ s, P s → P s.after) :
    ∀ (k : Nat) (s : State), P s → P (runFuel k s)
  | 0, _, hs => hs
  | k + 1, s, hs => by
    rw [runFuel_succ]
    split
    · exact runFuel_induction hstep k s.after (hstep s hs)
    · exact hstep s hs

/-! ## What a Step does, case by case -/

theorem after_of_ended {s : State} (hs : s.status ≠ .running) : s.after = s := by
  obtain ⟨-, h⟩ | ⟨h, -⟩ | ⟨h, -⟩ := after_cases s
  · exact h
  · exact absurd h hs
  · exact absurd h hs

theorem after_of_fetch_error {s : State} {c : FatalCondition} (hs : s.status = .running)
    (hf : fetchInstr s = .error c) : s.after = raiseFatal c s := by
  simp [State.after, step, hs, hf]

theorem after_of_effect_ok {s t : State} {i : Instr} (hs : s.status = .running) (hf : fetchInstr s = .ok i)
    (he : effect i s = .ok t) : s.after = t := by
  simp [State.after, step, hs, hf, exec_eq_conclude, he, conclude]

theorem after_of_effect_error {s : State} {i : Instr} {c : FatalCondition} (hs : s.status = .running)
    (hf : fetchInstr s = .ok i) (he : effect i s = .error c) : s.after = raiseFatal c s := by
  simp [State.after, step, hs, hf, exec_eq_conclude, he, conclude]

/-! ## What no Step changes (rules R6, R28, R51) -/

/-- `t` has the memory length, the width and the input sequence of `s`. -/
structure SameSetup (s t : State) : Prop where
  memLength : t.mem.length = s.mem.length
  cellBits : t.cellBits = s.cellBits
  input : t.input = s.input

theorem SameSetup.refl (s : State) : SameSetup s s := ⟨rfl, rfl, rfl⟩

theorem SameSetup.trans {s t u : State} (hst : SameSetup s t) (htu : SameSetup t u) : SameSetup s u :=
  ⟨htu.memLength.trans hst.memLength, htu.cellBits.trans hst.cellBits, htu.input.trans hst.input⟩

theorem sameSetup_raiseFatal (c : FatalCondition) (s : State) : SameSetup s (raiseFatal c s) := ⟨rfl, rfl, rfl⟩

theorem computeAndStore_sameSetup {i : Instr} {f : Int → Int → Except FatalCondition Int} {s t : State}
    (h : computeAndStore i f s = .ok t) : SameSetup s t := by
  obtain ⟨a, b, d, r, -, -, -, -, rfl⟩ := computeAndStore_eq_ok_iff.mp h
  exact ⟨List.length_set, rfl, rfl⟩

theorem pullAndStore_sameSetup {i : Instr} {s t : State} (h : pullAndStore i s = .ok t) : SameSetup s t := by
  obtain ⟨d, v, -, -, rfl⟩ := pullAndStore_eq_ok_iff.mp h
  exact ⟨List.length_set, rfl, rfl⟩

theorem readAndAppend_sameSetup {i : Instr} {s t : State} (h : readAndAppend i s = .ok t) : SameSetup s t := by
  obtain ⟨a, -, rfl⟩ := readAndAppend_eq_ok_iff.mp h
  exact ⟨rfl, rfl, rfl⟩

theorem jumpWhen_sameSetup {i : Instr} {p : Int → Bool} {s t : State} (h : jumpWhen i p s = .ok t) :
    SameSetup s t := by
  obtain ⟨a, -, ⟨-, rfl⟩ | ⟨-, u, -, -, rfl⟩⟩ := jumpWhen_eq_ok_iff.mp h
  · exact ⟨rfl, rfl, rfl⟩
  · exact ⟨rfl, rfl, rfl⟩

theorem effect_sameSetup {i : Instr} {s t : State} (h : effect i s = .ok t) : SameSetup s t := by
  cases i with
  | add _ | mul _ | lt _ | eq _ => unfold effect at h; exact computeAndStore_sameSetup h
  | inp _ => exact pullAndStore_sameSetup h
  | out _ => exact readAndAppend_sameSetup h
  | jt _ | jf _ => exact jumpWhen_sameSetup h
  | halt _ => cases h; exact ⟨rfl, rfl, rfl⟩

theorem after_sameSetup (s : State) : SameSetup s s.after := by
  obtain ⟨-, h⟩ | ⟨-, c, -, h⟩ | ⟨-, i, -, h | ⟨c, -, h⟩⟩ := after_cases s
  · rw [h]; exact .refl s
  · rw [h]; exact sameSetup_raiseFatal c s
  · exact effect_sameSetup h
  · rw [h]; exact sameSetup_raiseFatal c s

theorem runFuel_sameSetup (k : Nat) (s : State) : SameSetup s (runFuel k s) :=
  runFuel_induction (fun t ht => ht.trans (after_sameSetup t)) k s (.refl s)

/-- Settles O48: no Step changes memory's length, the width or the input sequence, and so no run does. -/
theorem memoryLengthIsFixed : Obligations.MemoryLengthIsFixed := fun k s =>
  have h := runFuel_sameSetup k s
  ⟨h.memLength, h.cellBits, h.input⟩

/-! ## The width of a cell in a Step (rules R6, R142)

Operand resolution and the fetch do not look at the width. ADD and MUL do, in their range check, and an infinite
source does, in the values it delivers. -/

/-- `s` with cells of the width `cb`. -/
def State.withWidth (s : State) (cb : CellBits) : State := { s with cellBits := cb }

@[simp] theorem State.withWidth_cellBits (s : State) (cb : CellBits) : (s.withWidth cb).cellBits = cb := rfl
@[simp] theorem State.withWidth_mem (s : State) (cb : CellBits) : (s.withWidth cb).mem = s.mem := rfl
@[simp] theorem State.withWidth_input (s : State) (cb : CellBits) : (s.withWidth cb).input = s.input := rfl
@[simp] theorem State.withWidth_cur (s : State) (cb : CellBits) : (s.withWidth cb).cur = s.cur := rfl
@[simp] theorem State.withWidth_status (s : State) (cb : CellBits) : (s.withWidth cb).status = s.status := rfl

@[simp] theorem readParam_withWidth (i : Instr) (n : Nat) (s : State) (cb : CellBits) :
    readParam i n (s.withWidth cb) = readParam i n s := rfl

@[simp] theorem dstParam_withWidth (n : Nat) (s : State) (cb : CellBits) :
    dstParam n (s.withWidth cb) = dstParam n s := rfl

@[simp] theorem fetchInstr_withWidth (s : State) (cb : CellBits) : fetchInstr (s.withWidth cb) = fetchInstr s := rfl

/-- The widths the spec admits hold every value of a 16-bit cell. -/
theorem fitsCell_of_fitsCell_bits16 {cb : CellBits} {v : Int} (hcb : WidthAdmitted cb)
    (hv : FitsCell (.bits 16) v) : FitsCell cb v := by
  cases cb with
  | inf => trivial
  | bits n =>
    have hn : 16 ≤ n := hcb
    have hpow : (2 : Int) ^ (16 - 1) ≤ 2 ^ (n - 1) := pow_le_pow_right₀ (by decide) (by omega)
    obtain ⟨hmin, hmax⟩ := hv
    exact ⟨(neg_le_neg hpow).trans hmin, hmax.trans_le hpow⟩

/-- A result that fits 16 bits passes the range check of every admitted width. -/
theorem narrow_eq_narrow_bits16 {cb : CellBits} (hcb : WidthAdmitted cb) {r : Int}
    (hr : narrow (.bits 16) r ≠ .error .arithmeticOverflow) : narrow cb r = narrow (.bits 16) r := by
  cases h : narrow (.bits 16) r with
  | error c =>
    obtain ⟨rfl, -⟩ := narrow_eq_error_iff.mp h
    exact absurd h hr
  | ok v =>
    obtain ⟨rfl, hin⟩ := narrow_eq_ok_iff.mp h
    exact narrow_eq_ok_iff.mpr
      ⟨rfl, fitsCell_iff_inRange.mp (fitsCell_of_fitsCell_bits16 hcb (fitsCell_iff_inRange.mpr hin))⟩

/-- Two result functions that agree where the first does not overflow give the same four-cell instruction, where that
does not overflow. -/
theorem computeAndStore_congr {i : Instr} {f g : Int → Int → Except FatalCondition Int} {s : State}
    (hfg : ∀ a b, f a b ≠ .error .arithmeticOverflow → g a b = f a b)
    (h : computeAndStore i f s ≠ .error .arithmeticOverflow) : computeAndStore i g s = computeAndStore i f s := by
  unfold computeAndStore at h ⊢
  cases h1 : readParam i 1 s with
  | error c => rfl
  | ok a =>
    cases h2 : readParam i 2 s with
    | error c => rfl
    | ok b =>
      cases h3 : dstParam 3 s with
      | error c => rfl
      | ok d =>
        have hab : f a b ≠ .error .arithmeticOverflow := fun hf => h (by simp [h1, h2, h3, hf])
        simp only [hfg a b hab]

theorem storeAndAdvance_withWidth (a v : Int) (n : Nat) (s : State) (cb : CellBits) :
    storeAndAdvance a v n (s.withWidth cb) = (storeAndAdvance a v n s).map (·.withWidth cb) := by
  unfold storeAndAdvance
  rw [State.withWidth_mem]
  cases memWrite s.mem a v <;> rfl

theorem computeAndStore_withWidth (i : Instr) (f : Int → Int → Except FatalCondition Int) (s : State)
    (cb : CellBits) : computeAndStore i f (s.withWidth cb) = (computeAndStore i f s).map (·.withWidth cb) := by
  unfold computeAndStore
  rw [readParam_withWidth, readParam_withWidth, dstParam_withWidth]
  cases readParam i 1 s with
  | error c => rfl
  | ok a =>
    cases readParam i 2 s with
    | error c => rfl
    | ok b =>
      cases dstParam 3 s with
      | error c => rfl
      | ok d =>
        cases hr : f a b with
        | error c => simp [hr, Except.map]
        | ok r => simpa [hr] using storeAndAdvance_withWidth d r i.length s cb

/-- The values of a finite input do not depend on the width (rule R28). -/
theorem inNext_withWidth {s : State} {vs : List Int} (hin : s.input = .values vs) (cb : CellBits) :
    inNext (s.withWidth cb) = (inNext s).map fun (v, t) => (v, t.withWidth cb) := by
  have hval : (Input.values vs).valueAt cb s.cur = (Input.values vs).valueAt s.cellBits s.cur := rfl
  unfold inNext
  rw [State.withWidth_input, State.withWidth_cellBits, State.withWidth_cur, hin, hval]
  cases (Input.values vs).valueAt s.cellBits s.cur <;> rfl

theorem pullAndStore_withWidth {s : State} {vs : List Int} (hin : s.input = .values vs) (i : Instr)
    (cb : CellBits) : pullAndStore i (s.withWidth cb) = (pullAndStore i s).map (·.withWidth cb) := by
  unfold pullAndStore
  rw [dstParam_withWidth, inNext_withWidth hin]
  cases dstParam 1 s with
  | error c => rfl
  | ok d =>
    cases inNext s with
    | error c => rfl
    | ok vt => exact storeAndAdvance_withWidth d vt.1 i.length vt.2 cb

theorem readAndAppend_withWidth (i : Instr) (s : State) (cb : CellBits) :
    readAndAppend i (s.withWidth cb) = (readAndAppend i s).map (·.withWidth cb) := by
  unfold readAndAppend
  rw [readParam_withWidth]
  cases readParam i 1 s <;> rfl

theorem jumpWhen_withWidth (i : Instr) (p : Int → Bool) (s : State) (cb : CellBits) :
    jumpWhen i p (s.withWidth cb) = (jumpWhen i p s).map (·.withWidth cb) := by
  unfold jumpWhen
  rw [readParam_withWidth, readParam_withWidth]
  cases readParam i 1 s with
  | error c => rfl
  | ok a =>
    cases hp : p a with
    | false => simp [hp, Except.map]; rfl
    | true =>
      cases readParam i 2 s with
      | error c => simp [hp, Except.map]
      | ok t => cases ht : checkTarget t <;> simp [hp, ht, Except.map]; rfl

/-- ADD and MUL: a four-cell instruction whose result is checked, where it meets no overflow at 16 bits. -/
theorem computeAndStore_narrow_withWidth {i : Instr} {op : Int → Int → Int} {s : State} {cb : CellBits}
    (hcb : WidthAdmitted cb)
    (h : computeAndStore i (fun a b => narrow (.bits 16) (op a b)) s ≠ .error .arithmeticOverflow) :
    computeAndStore i (fun a b => narrow cb (op a b)) (s.withWidth cb) =
      (computeAndStore i (fun a b => narrow (.bits 16) (op a b)) s).map (·.withWidth cb) := by
  rw [computeAndStore_withWidth, computeAndStore_congr (fun _ _ => narrow_eq_narrow_bits16 hcb) h]

section
variable {s : State} {cb : CellBits} {vs : List Int}

/-- An instruction that meets no overflow at 16 bits has the same effect at every admitted width. -/
theorem effect_withWidth {i : Instr} (h16 : s.cellBits = .bits 16) (hcb : WidthAdmitted cb)
    (hin : s.input = .values vs) (hov : effect i s ≠ .error .arithmeticOverflow) :
    effect i (s.withWidth cb) = (effect i s).map (·.withWidth cb) := by
  cases i with
  | add _ | mul _ =>
    simp only [effect, h16] at hov ⊢
    exact computeAndStore_narrow_withWidth hcb hov
  | lt _ | eq _ => unfold effect; exact computeAndStore_withWidth ..
  | inp _ => exact pullAndStore_withWidth hin ..
  | out _ => exact readAndAppend_withWidth ..
  | jt _ | jf _ => exact jumpWhen_withWidth ..
  | halt _ => rfl

/-- A Step that does not end in an overflow at 16 bits is the same Step at every admitted width. -/
theorem after_withWidth (h16 : s.cellBits = .bits 16) (hcb : WidthAdmitted cb) (hin : s.input = .values vs)
    (hov : s.after.status = .faulted → s.after.fcause ≠ 9) :
    (s.withWidth cb).after = s.after.withWidth cb := by
  by_cases hs : s.status = .running
  case neg => rw [after_of_ended hs, after_of_ended (s := s.withWidth cb) hs]
  cases hf : fetchInstr s with
  | error c =>
    rw [after_of_fetch_error hs hf, after_of_fetch_error (s := s.withWidth cb) hs hf]
    rfl
  | ok i =>
    have hne : effect i s ≠ .error .arithmeticOverflow := fun he => by
      rw [after_of_effect_error hs hf he] at hov
      exact hov rfl rfl
    have heffect := effect_withWidth h16 hcb hin hne
    cases he : effect i s with
    | error c =>
      rw [he] at heffect
      rw [after_of_effect_error hs hf he, after_of_effect_error (s := s.withWidth cb) hs hf heffect]
      rfl
    | ok t =>
      rw [he] at heffect
      rw [after_of_effect_ok hs hf he, after_of_effect_ok (s := s.withWidth cb) hs hf heffect]

/-- A run that does not end in an overflow at 16 bits is the same run at every admitted width. -/
theorem runFuel_withWidth (k : Nat) (h16 : s.cellBits = .bits 16) (hcb : WidthAdmitted cb)
    (hin : s.input = .values vs) (hov : (runFuel k s).fcause ≠ 9) :
    runFuel k (s.withWidth cb) = (runFuel k s).withWidth cb := by
  induction k generalizing s with
  | zero => rfl
  | succ k ih =>
    have hsetup := after_sameSetup s
    rw [runFuel_succ] at hov ⊢
    by_cases hrun : s.after.status = .running
    · rw [if_pos hrun] at hov
      have hstep : (s.withWidth cb).after = s.after.withWidth cb :=
        after_withWidth h16 hcb hin fun hf => by simp [hrun] at hf
      rw [runFuel_succ, hstep, State.withWidth_status, if_pos hrun, if_pos hrun]
      exact ih (hsetup.cellBits.trans h16) (hsetup.input.trans hin) hov
    · rw [if_neg hrun] at hov
      rw [runFuel_succ, after_withWidth h16 hcb hin fun _ => hov, State.withWidth_status, if_neg hrun, if_neg hrun]

end

/-- Settles O60, by induction over the run: a Step that does not overflow at 16 bits is the same Step at `cb`. -/
theorem widthShowsOnlyInOverflow : Obligations.WidthShowsOnlyInOverflow := fun k _ _ _ h16 hcb hin _ hov =>
  runFuel_withWidth k h16 hcb hin hov

end Sys2Proof.Machine
end

section
/-! PROOFS. The state: what a Step commits, the invariant of the machine, what no Step can see, and the state Load
gives. Settles O49, O52, O53, O54, O58 and O59. -/

namespace Sys2Proof.Machine

/-! ## A Step and the state after it -/

theorem step_of_fetchInstr_ok {s : State} {i : Instr} (hs : s.status = .running) (hf : fetchInstr s = .ok i) :
    step s = exec i s := by
  simp only [step, hs, hf]

theorem exec_answers_next (i : Instr) (s : State) : ∃ t, exec i s = .next t := by
  rw [exec_eq_conclude]
  cases effect i s with
  | ok t => exact ⟨t, rfl⟩
  | error c => exact ⟨raiseFatal c s, rfl⟩

theorem step_answers_next (s : State) : ∃ t, step s = .next t := by
  unfold step
  split
  · split
    · exact ⟨_, rfl⟩
    · exact exec_answers_next _ s
  · exact ⟨s, rfl⟩
  · exact ⟨s, rfl⟩

theorem step_eq_next_iff {s t : State} : step s = .next t ↔ s.after = t := by
  obtain ⟨u, hu⟩ := step_answers_next s
  simp [State.after, hu]

/-! ## What a completed instruction commits (rules R121, R122)

One list of the six updates, each with what is known of the value it writes: what must hold of every completed
instruction is shown once for each update. -/

/-- `t` is `s` with what one completed instruction commits. -/
inductive Commits (s : State) : State → Prop where
  /-- ADD, MUL, LT, EQ: a checked result or a truth value is stored. -/
  | store (d : Nat) (r : Int) (n : Nat) (hr : s.cellBits.inRange r = true ∨ ∃ b, r = truthValue b) :
      Commits s ((s.withMem (s.mem.set d r)).advance n)
  /-- IN: the input value at the cursor is stored. -/
  | pull (d : Nat) (v : Int) (n : Nat) (hv : s.input.valueAt s.cellBits s.cur = some v) :
      Commits s ((s.consume.withMem (s.mem.set d v)).advance n)
  /-- OUT: the value of a parameter is appended. -/
  | append (i : Instr) (k : Nat) (v : Int) (n : Nat) (hv : readParam i k s = .ok v) :
      Commits s ((s.appendOut v).advance n)
  /-- JT, JF, not taken. -/
  | pass (n : Nat) : Commits s (s.advance n)
  /-- JT, JF, taken. -/
  | jump (target : Nat) : Commits s (s.jumpTo target)
  /-- HALT. -/
  | halt : Commits s s.stop

theorem computeAndStore_commits {i : Instr} {f : Int → Int → Except FatalCondition Int} {s t : State}
    (hf : ∀ a b r, f a b = .ok r → s.cellBits.inRange r = true ∨ ∃ b, r = truthValue b)
    (h : computeAndStore i f s = .ok t) : Commits s t := by
  obtain ⟨a, b, d, r, -, -, -, hr, rfl⟩ := computeAndStore_eq_ok_iff.mp h
  exact .store _ _ _ (hf a b r hr)

theorem computeAndStore_narrow_commits {i : Instr} {op : Int → Int → Int} {s t : State}
    (h : computeAndStore i (fun a b => narrow s.cellBits (op a b)) s = .ok t) : Commits s t := by
  refine computeAndStore_commits (fun a b r hr => .inl ?_) h
  obtain ⟨rfl, hin⟩ := narrow_eq_ok_iff.mp hr
  exact hin

theorem computeAndStore_truthValue_commits {i : Instr} {p : Int → Int → Bool} {s t : State}
    (h : computeAndStore i (fun a b => .ok (truthValue (p a b))) s = .ok t) : Commits s t :=
  computeAndStore_commits (fun a b _ hr => .inr ⟨p a b, (Except.ok.inj hr).symm⟩) h

theorem pullAndStore_commits {i : Instr} {s t : State} (h : pullAndStore i s = .ok t) : Commits s t := by
  obtain ⟨d, v, -, hv, rfl⟩ := pullAndStore_eq_ok_iff.mp h
  exact .pull _ _ _ hv

theorem readAndAppend_commits {i : Instr} {s t : State} (h : readAndAppend i s = .ok t) : Commits s t := by
  obtain ⟨v, hv, rfl⟩ := readAndAppend_eq_ok_iff.mp h
  exact .append _ _ _ _ hv

theorem jumpWhen_commits {i : Instr} {p : Int → Bool} {s t : State} (h : jumpWhen i p s = .ok t) : Commits s t := by
  obtain ⟨a, -, ⟨-, rfl⟩ | ⟨-, u, -, -, rfl⟩⟩ := jumpWhen_eq_ok_iff.mp h
  · exact .pass _
  · exact .jump _

theorem effect_commits {i : Instr} {s t : State} (h : effect i s = .ok t) : Commits s t := by
  cases i with
  | add _ | mul _ => exact computeAndStore_narrow_commits h
  | lt _ | eq _ => exact computeAndStore_truthValue_commits h
  | inp _ => exact pullAndStore_commits h
  | out _ => exact readAndAppend_commits h
  | jt _ | jf _ => exact jumpWhen_commits h
  | halt _ => cases h; exact .halt

/-! ## What a Step raises (rule R200): every fatal condition but Load's -/

theorem fetchInstr_error_ne_malformed {s : State} {c : FatalCondition} (h : fetchInstr s = .error c) :
    c ≠ .malformedProgram := by
  obtain ⟨-, rfl⟩ | ⟨-, r, -, -, rfl⟩ := fetchInstr_eq_error_iff.mp h
  · nofun
  · cases r <;> nofun

theorem readParam_error_ne_malformed {i : Instr} {n : Nat} {s : State} {c : FatalCondition}
    (h : readParam i n s = .error c) : c ≠ .malformedProgram := by
  obtain ⟨-, rfl⟩ | ⟨-, -, ⟨-, rfl⟩ | ⟨-, -, rfl⟩⟩ := readParam_eq_error_iff.mp h <;> nofun

theorem dstParam_error_ne_malformed {n : Nat} {s : State} {c : FatalCondition} (h : dstParam n s = .error c) :
    c ≠ .malformedProgram := by
  obtain ⟨-, rfl⟩ | ⟨-, -, -, rfl⟩ := dstParam_eq_error_iff.mp h <;> nofun

theorem narrow_error_ne_malformed {cb : CellBits} {r : Int} {c : FatalCondition} (h : narrow cb r = .error c) :
    c ≠ .malformedProgram := by
  obtain ⟨rfl, -⟩ := narrow_eq_error_iff.mp h
  nofun

theorem computeAndStore_error_ne_malformed {i : Instr} {f : Int → Int → Except FatalCondition Int} {s : State}
    {c : FatalCondition} (hf : ∀ a b, f a b = .error c → c ≠ .malformedProgram)
    (h : computeAndStore i f s = .error c) : c ≠ .malformedProgram := by
  obtain h1 | ⟨a, -, h2 | ⟨b, -, h3 | ⟨d, -, hr⟩⟩⟩ := computeAndStore_eq_error_iff.mp h
  · exact readParam_error_ne_malformed h1
  · exact readParam_error_ne_malformed h2
  · exact dstParam_error_ne_malformed h3
  · exact hf a b hr

theorem pullAndStore_error_ne_malformed {i : Instr} {s : State} {c : FatalCondition}
    (h : pullAndStore i s = .error c) : c ≠ .malformedProgram := by
  obtain hd | ⟨-, -, -, rfl⟩ := pullAndStore_eq_error_iff.mp h
  · exact dstParam_error_ne_malformed hd
  · nofun

theorem jumpWhen_error_ne_malformed {i : Instr} {p : Int → Bool} {s : State} {c : FatalCondition}
    (h : jumpWhen i p s = .error c) : c ≠ .malformedProgram := by
  obtain h1 | ⟨-, -, -, h2 | ⟨-, -, -, rfl⟩⟩ := jumpWhen_eq_error_iff.mp h
  · exact readParam_error_ne_malformed h1
  · exact readParam_error_ne_malformed h2
  · nofun

theorem effect_error_ne_malformed {i : Instr} {s : State} {c : FatalCondition} (h : effect i s = .error c) :
    c ≠ .malformedProgram := by
  cases i with
  | add _ | mul _ => exact computeAndStore_error_ne_malformed (fun _ _ => narrow_error_ne_malformed) h
  | lt _ | eq _ =>
    unfold effect at h
    exact computeAndStore_error_ne_malformed (fun _ _ hr => by cases hr) h
  | inp _ => exact pullAndStore_error_ne_malformed h
  | out _ => exact readParam_error_ne_malformed (readAndAppend_eq_error_iff.mp h)
  | jt _ | jf _ => exact jumpWhen_error_ne_malformed h
  | halt _ => cases h

/-! ## The shape of a Step -/

/-- A Step changes nothing, raises a fatal condition other than Load's, or commits one instruction; the last two in a
running engine only (rules R110 to R112). -/
theorem after_unchanged_or_faults_or_commits (s : State) :
    s.after = s ∨ (∃ c : FatalCondition, c ≠ .malformedProgram ∧ s.after = raiseFatal c s) ∨
      (s.status = .running ∧ Commits s s.after) := by
  obtain ⟨-, h⟩ | ⟨-, c, hf, h⟩ | ⟨hs, i, -, he | ⟨c, he, h⟩⟩ := after_cases s
  · exact .inl h
  · exact .inr (.inl ⟨c, fetchInstr_error_ne_malformed hf, h⟩)
  · exact .inr (.inr ⟨hs, effect_commits he⟩)
  · exact .inr (.inl ⟨c, effect_error_ne_malformed he, h⟩)

/-! ## The invariant (rules R6, R22, R27, R28, R200) -/

theorem State.Inv.readParam_fits {s : State} (hi : s.Inv) {i : Instr} {n : Nat} {v : Int}
    (h : readParam i n s = .ok v) : FitsCell s.cellBits v := by
  obtain ⟨raw, hraw, ⟨-, -, hv⟩ | ⟨-, rfl⟩⟩ := readParam_eq_ok_iff.mp h
  · exact hi.cells v (List.mem_of_getElem? hv)
  · exact hi.cells v (List.mem_of_getElem? hraw)

theorem truthValue_fits {cb : CellBits} (h : WidthAdmitted cb) (b : Bool) : FitsCell cb (truthValue b) :=
  fitsCell_iff_inRange.mpr (truthValue_inRange (widthAdmitted_iff.mp h) b)

theorem State.Inv.withMem_set {s : State} (hi : s.Inv) (d : Nat) {v : Int} (hv : FitsCell s.cellBits v) :
    (s.withMem (s.mem.set d v)).Inv where
  __ := hi
  cells w hw := by
    obtain hw | rfl := List.mem_or_eq_of_mem_set hw
    · exact hi.cells w hw
    · exact hv

theorem State.Inv.consume {s : State} (hi : s.Inv) {v : Int} (hv : s.input.valueAt s.cellBits s.cur = some v) :
    s.consume.Inv where
  __ := hi
  cursor vs hvs := by
    rw [show s.input = .values vs from hvs] at hv
    obtain ⟨hlt, -⟩ := List.getElem?_eq_some_iff.mp hv
    exact hlt

theorem State.Inv.appendOut {s : State} (hi : s.Inv) {v : Int} (hv : FitsCell s.cellBits v) :
    (s.appendOut v).Inv where
  __ := hi
  outputs w hw := by
    obtain hw | hw := List.mem_append.mp hw
    · exact hi.outputs w hw
    · exact List.mem_singleton.mp hw ▸ hv

theorem State.Inv.advance {s : State} (hi : s.Inv) (n : Nat) : (s.advance n).Inv := { hi with }

theorem State.Inv.jumpTo {s : State} (hi : s.Inv) (target : Nat) : (s.jumpTo target).Inv := { hi with }

/-- HALT in a state with no fault: in a faulted one it would leave a record without a fault. -/
theorem State.Inv.stop {s : State} (hi : s.Inv) (hs : s.status ≠ .faulted) : s.stop.Inv where
  __ := hi
  noRecord _ := hi.noRecord hs
  record := nofun

theorem State.Inv.raiseFatal {s : State} (hi : s.Inv) {c : FatalCondition} (hc : c ≠ .malformedProgram) :
    (raiseFatal c s).Inv where
  __ := hi
  noRecord h := absurd rfl h
  record _ := ⟨c, hc, rfl, rfl⟩

theorem Commits.inv {s t : State} (h : Commits s t) (hi : s.Inv) (hs : s.status = .running) : t.Inv := by
  cases h with
  | store d r n hr =>
    have hfit : FitsCell s.cellBits r := by
      obtain hr | ⟨b, rfl⟩ := hr
      · exact fitsCell_iff_inRange.mpr hr
      · exact truthValue_fits hi.width b
    exact (hi.withMem_set d hfit).advance n
  | pull d v n hv => exact ((hi.consume hv).withMem_set d (hi.inputs _ v hv)).advance n
  | append i k v n hv => exact (hi.appendOut (hi.readParam_fits hv)).advance n
  | pass n => exact hi.advance n
  | jump target => exact hi.jumpTo target
  | halt => exact hi.stop (by simp [hs])

theorem after_inv {s : State} (hi : s.Inv) : s.after.Inv := by
  obtain h | ⟨c, hc, h⟩ | ⟨hs, h⟩ := after_unchanged_or_faults_or_commits s
  · rwa [h]
  · rw [h]; exact hi.raiseFatal hc
  · exact h.inv hi hs

/-- Settles O52: each update an instruction commits, and fault entry, keeps the invariant. -/
theorem stepKeepsTheInvariant : Obligations.StepKeepsTheInvariant := by
  intro s t hi h
  rw [← step_eq_next_iff.mp h]
  exact after_inv hi

/-! ## The output grows and the cursor does not go back (rules R28, R29, R126) -/

/-- `t` comes after `s` in what was output and in what was consumed. -/
structure HistoryExtends (s t : State) : Prop where
  out : s.out <+: t.out
  cur : s.cur ≤ t.cur

theorem HistoryExtends.refl (s : State) : HistoryExtends s s := ⟨List.prefix_rfl, le_rfl⟩

theorem HistoryExtends.trans {s t u : State} (hst : HistoryExtends s t) (htu : HistoryExtends t u) :
    HistoryExtends s u :=
  ⟨hst.out.trans htu.out, hst.cur.trans htu.cur⟩

theorem Commits.historyExtends {s t : State} (h : Commits s t) : HistoryExtends s t := by
  cases h with
  | pull => exact ⟨List.prefix_rfl, Nat.le_succ _⟩
  | append => exact ⟨List.prefix_append _ _, le_rfl⟩
  | store | pass | jump | halt => exact ⟨List.prefix_rfl, le_rfl⟩

theorem after_historyExtends (s : State) : HistoryExtends s s.after := by
  obtain h | ⟨c, -, h⟩ | ⟨-, h⟩ := after_unchanged_or_faults_or_commits s
  · rw [h]; exact .refl s
  · rw [h]; exact ⟨List.prefix_rfl, le_rfl⟩
  · exact h.historyExtends

/-- Settles O49: every Step appends at the end of the output or leaves it, so every run does. -/
theorem outputsOnlyGrow : Obligations.OutputsOnlyGrow := by
  intro k s
  obtain ⟨⟨more, hmore⟩, hcur⟩ : HistoryExtends s (runFuel k s) :=
    runFuel_induction (fun t ht => ht.trans (after_historyExtends t)) k s (.refl s)
  exact ⟨⟨more, hmore.symm⟩, hcur⟩

/-! ## Changes no Step can see

A Step reads memory, the pointer, the status, the width and the input value at the cursor. A change of the state that
leaves these, and that passes through every update a Step makes, passes through the Step. -/

/-- The change `g` leaves what a Step reads (but the input value) and passes through every update of a Step. -/
structure Unseen (g : State → State) : Prop where
  cellBits : ∀ s, (g s).cellBits = s.cellBits
  mem : ∀ s, (g s).mem = s.mem
  ip : ∀ s, (g s).ip = s.ip
  status : ∀ s, (g s).status = s.status
  withMem : ∀ s m, (g s).withMem m = g (s.withMem m)
  advance : ∀ s n, (g s).advance n = g (s.advance n)
  jumpTo : ∀ s n, (g s).jumpTo n = g (s.jumpTo n)
  appendOut : ∀ s v, (g s).appendOut v = g (s.appendOut v)
  consume : ∀ s, (g s).consume = g s.consume
  stop : ∀ s, (g s).stop = g s.stop
  raiseFatal : ∀ c s, raiseFatal c (g s) = g (raiseFatal c s)

section
variable {g : State → State} (hg : Unseen g)
include hg

theorem Unseen.rawParam (n : Nat) (s : State) : rawParam n (g s) = rawParam n s := by
  simp only [Machine.rawParam, hg.mem, hg.ip]

theorem Unseen.readParam (i : Instr) (n : Nat) (s : State) : readParam i n (g s) = readParam i n s := by
  simp only [Machine.readParam, hg.rawParam, hg.mem]

theorem Unseen.dstParam (n : Nat) (s : State) : dstParam n (g s) = dstParam n s := by
  simp only [Machine.dstParam, hg.rawParam, hg.mem]

theorem Unseen.fetchInstr (s : State) : fetchInstr (g s) = fetchInstr s := by
  simp only [Machine.fetchInstr, fetchWord, hg.mem, hg.ip]

theorem Unseen.storeAndAdvance (a v : Int) (n : Nat) (s : State) :
    storeAndAdvance a v n (g s) = (storeAndAdvance a v n s).map g := by
  simp only [Machine.storeAndAdvance, hg.mem, hg.withMem, hg.advance]
  cases memWrite s.mem a v <;> rfl

theorem Unseen.computeAndStore (i : Instr) (f : Int → Int → Except FatalCondition Int) (s : State) :
    computeAndStore i f (g s) = (computeAndStore i f s).map g := by
  simp only [Machine.computeAndStore, hg.readParam, hg.dstParam, hg.storeAndAdvance]
  cases Machine.readParam i 1 s with
  | error c => rfl
  | ok a =>
    cases Machine.readParam i 2 s with
    | error c => rfl
    | ok b =>
      cases Machine.dstParam 3 s with
      | error c => rfl
      | ok d => cases hr : f a b <;> simp [hr, Except.map]

theorem Unseen.readAndAppend (i : Instr) (s : State) :
    readAndAppend i (g s) = (readAndAppend i s).map g := by
  simp only [Machine.readAndAppend, hg.readParam, hg.appendOut, hg.advance]
  cases Machine.readParam i 1 s <;> rfl

theorem Unseen.jumpWhen (i : Instr) (p : Int → Bool) (s : State) :
    jumpWhen i p (g s) = (jumpWhen i p s).map g := by
  simp only [Machine.jumpWhen, hg.readParam, hg.jumpTo, hg.advance]
  cases Machine.readParam i 1 s with
  | error c => rfl
  | ok a =>
    cases hp : p a with
    | false => simp [hp, Except.map]
    | true =>
      cases Machine.readParam i 2 s with
      | error c => simp [hp, Except.map]
      | ok t => cases ht : checkTarget t <;> simp [hp, ht, Except.map]

variable {s : State} (hin : (g s).input.valueAt s.cellBits (g s).cur = s.input.valueAt s.cellBits s.cur)
include hin

theorem Unseen.inNext : inNext (g s) = (inNext s).map fun (v, t) => (v, g t) := by
  simp only [Machine.inNext, hg.cellBits, hin, hg.consume]
  cases s.input.valueAt s.cellBits s.cur <;> rfl

theorem Unseen.pullAndStore (i : Instr) : pullAndStore i (g s) = (pullAndStore i s).map g := by
  simp only [Machine.pullAndStore, hg.dstParam, hg.inNext hin]
  cases Machine.dstParam 1 s with
  | error c => rfl
  | ok d =>
    cases Machine.inNext s with
    | error c => rfl
    | ok vt => exact hg.storeAndAdvance d vt.1 i.length vt.2

theorem Unseen.effect (i : Instr) : effect i (g s) = (effect i s).map g := by
  cases i with
  | add _ | mul _ | lt _ | eq _ => simp only [Machine.effect, hg.cellBits]; exact hg.computeAndStore ..
  | inp _ => exact hg.pullAndStore hin _
  | out _ => exact hg.readAndAppend ..
  | jt _ | jf _ => exact hg.jumpWhen ..
  | halt _ => exact congrArg Except.ok (hg.stop s)

theorem Unseen.after : (g s).after = g s.after := by
  by_cases hs : s.status = .running
  case neg => rw [after_of_ended hs, after_of_ended (hg.status s ▸ hs)]
  have hgs : (g s).status = .running := (hg.status s).trans hs
  cases hf : Machine.fetchInstr s with
  | error c =>
    rw [after_of_fetch_error hs hf, after_of_fetch_error hgs ((hg.fetchInstr s).trans hf), hg.raiseFatal]
  | ok i =>
    have hgf := (hg.fetchInstr s).trans hf
    have hge := hg.effect hin i
    cases he : Machine.effect i s with
    | error c =>
      rw [he] at hge
      rw [after_of_effect_error hs hf he, after_of_effect_error hgs hgf hge, hg.raiseFatal]
    | ok t =>
      rw [he] at hge
      rw [after_of_effect_ok hs hf he, after_of_effect_ok hgs hgf hge]

theorem Unseen.step {t : State} (h : step s = .next t) : step (g s) = .next (g t) := by
  rw [step_eq_next_iff] at h ⊢
  rw [hg.after hin, h]

end

/-- `s` with earlier values in front of its output. -/
def State.withEarlierOut (earlier : List Int) (s : State) : State := { s with out := earlier ++ s.out }

/-- OUT appends at the end, so values in front of the output stay there (rules R29, R151). -/
theorem unseen_withEarlierOut (earlier : List Int) : Unseen (State.withEarlierOut earlier) := by
  constructor
  case appendOut => intro s v; simp [State.withEarlierOut, State.appendOut]
  all_goals intros; rfl

/-- Settles O58: what was output before is no part of what a Step reads. -/
theorem outputIsNeverReadBack : Obligations.OutputIsNeverReadBack := fun _ _ earlier h =>
  (unseen_withEarlierOut earlier).step rfl h

/-- `s` with another input sequence. -/
def State.withInput (input : Input) (s : State) : State := { s with input := input }

theorem unseen_withInput (input : Input) : Unseen (State.withInput input) := by
  constructor
  all_goals intros; rfl

/-- Settles O59: of the input sequence a Step reads the value at the cursor alone. -/
theorem inputIsReadOnlyAtTheCursor : Obligations.InputIsReadOnlyAtTheCursor := fun _ _ input hin h =>
  (unseen_withInput input).step hin h

/-! ## The image a program text gives (rules R98, R241) -/

theorem splitAtCommas_ne_nil (text : List Char) : splitAtCommas text ≠ [] := by
  fun_cases splitAtCommas text <;> nofun

theorem parseToken_inRange {cb : CellBits} {token : List Char} {v : Int} (h : parseToken cb token = some v) :
    cb.inRange v = true := by
  unfold parseToken at h
  split at h
  · split at h
    case isTrue w _ hw => cases h; exact hw
    case isFalse => cases h
  · cases h

/-- The tokens parse exactly when each of them does, and the image is their values in order. -/
theorem parseTokens_eq_some_iff {cb : CellBits} {tokens : List (List Char)} {image : List Int} :
    parseTokens cb tokens = some image ↔ tokens.map (parseToken cb) = image.map some := by
  induction tokens generalizing image with
  | nil => cases image <;> simp [parseTokens]
  | cons token tokens ih =>
    unfold parseTokens
    cases ht : parseToken cb token with
    | none => cases image <;> simp [ht]
    | some v =>
      cases hts : parseTokens cb tokens with
      | none =>
        have hne (vs : List Int) : tokens.map (parseToken cb) ≠ vs.map some := fun h => by simp [ih.mpr h] at hts
        cases image <;> simp [hne]
      | some vs =>
        have hvs := ih.mp hts
        cases image <;> simp [ht, hvs, List.map_inj_right (Option.some_injective Int)]

theorem parseProgram_ne_nil {cb : CellBits} {text : List Char} {image : List Int}
    (h : parseProgram cb text = some image) : image ≠ [] := by
  rintro rfl
  exact splitAtCommas_ne_nil _ (List.map_eq_nil_iff.mp (parseTokens_eq_some_iff.mp h))

theorem parseProgram_fits {cb : CellBits} {text : List Char} {image : List Int}
    (h : parseProgram cb text = some image) : ∀ v ∈ image, FitsCell cb v := by
  intro v hv
  have hmem : some v ∈ image.map some := List.mem_map_of_mem hv
  rw [← parseTokens_eq_some_iff.mp h] at hmem
  obtain ⟨token, -, htoken⟩ := List.mem_map.mp hmem
  exact fitsCell_iff_inRange.mpr (parseToken_inRange htoken)

/-! ## Load (rules R36, R240 to R245) -/

/-- The check Load makes of an input says that all its values are of the cell range, an infinite source's too. -/
theorem input_wf_iff {cb : CellBits} (hcb : WidthAdmitted cb) {input : Input} :
    input.wf cb = true ↔ ∀ k v, input.valueAt cb k = some v → FitsCell cb v := by
  cases input with
  | source n =>
    simp only [Input.wf, Input.valueAt, Option.some.injEq, true_iff]
    rintro k v rfl
    exact sourceValue_fits hcb n k
  | values vs =>
    simp only [Input.wf, Input.valueAt, List.all_eq_true, ← fitsCell_iff_inRange, List.mem_iff_getElem?]
    exact ⟨fun h k v hv => h v ⟨k, hv⟩, fun h v ⟨k, hv⟩ => h k v hv⟩

/-- Load answers exactly the reset state of the image, where the width, the text and the input pass its checks. -/
theorem load_eq_ok_iff {cb : CellBits} {text : List Char} {input : Input} {s : State} :
    load cb text input = .ok s ↔
      WidthAdmitted cb ∧ ∃ image, parseProgram cb text = some image ∧
        (∀ k v, input.valueAt cb k = some v → FitsCell cb v) ∧ s = State.ofImage cb image input := by
  unfold load
  by_cases hcb : WidthAdmitted cb
  case neg => simp [widthAdmitted_iff.not.mp hcb, hcb]
  rw [if_pos (widthAdmitted_iff.mp hcb), ← input_wf_iff hcb]
  cases parseProgram cb text with
  | none => simp
  | some image => cases input.wf cb <;> simp [hcb, eq_comm]

theorem load_of_parseProgram_none {cb : CellBits} {text : List Char} {input : Input} (hcb : WidthAdmitted cb)
    (h : parseProgram cb text = none) : load cb text input = .error (.fatal .malformedProgram) := by
  simp [load, widthAdmitted_iff.mp hcb, h]

theorem inv_ofImage {cb : CellBits} {image : List Int} {input : Input} (hcb : WidthAdmitted cb)
    (himage : ∀ v ∈ image, FitsCell cb v) (hinput : ∀ k v, input.valueAt cb k = some v → FitsCell cb v) :
    (State.ofImage cb image input).Inv where
  width := hcb
  cells := himage
  inputs := hinput
  outputs := nofun
  cursor _ _ := Nat.zero_le _
  noRecord _ := ⟨rfl, rfl⟩
  record := nofun

/-- Settles O53: Load answers the reset state of the image that the text parses to. -/
theorem loadGivesTheResetValues : Obligations.LoadGivesTheResetValues := by
  refine ⟨fun cb text input s h => ?_, fun cb text input => load_of_parseProgram_none,
    fun cb text input image hcb himage hinput => load_eq_ok_iff.mpr ⟨hcb, image, himage, hinput, rfl⟩⟩
  obtain ⟨-, image, himage, -, rfl⟩ := load_eq_ok_iff.mp h
  refine ⟨himage, List.length_pos_iff.mpr (parseProgram_ne_nil himage), rfl, rfl, rfl, rfl, rfl, rfl, rfl, rfl,
    fun w i hw hi => ?_⟩
  exact step_of_fetchInstr_ok rfl (fetchInstr_eq_ok_iff.mpr ⟨w, hw, hi⟩)

/-- Settles O54: Load has checked the width, every token and every input value. -/
theorem loadEstablishesTheInvariant : Obligations.LoadEstablishesTheInvariant := by
  intro cb text input s h
  obtain ⟨hcb, image, himage, hinput, rfl⟩ := load_eq_ok_iff.mp h
  exact inv_ofImage hcb (parseProgram_fits himage) hinput

end Sys2Proof.Machine
end

section
/-! PROOFS. Memory: what a read, a write and a storing instruction do to the cells, and that the next fetch sees a
store. Settles O9, O10, O29 and O45. -/

namespace Sys2Proof

/-! ## The storing instructions (rules R119, R122, R152) -/

/-- The number of the parameter that names the cell an instruction writes; none where it writes no cell. -/
def Instr.destination : Instr → Option Nat
  | .add _ | .mul _ | .lt _ | .eq _ => some 3
  | .inp _ => some 1
  | .out _ | .jt _ | .jf _ | .halt _ => none

/-- The number of input values an instruction consumes when it completes. -/
def Instr.inputsTaken : Instr → Nat
  | .inp _ => 1
  | .add _ | .mul _ | .out _ | .jt _ | .jf _ | .lt _ | .eq _ | .halt _ => 0

end Sys2Proof

namespace Sys2Proof.Machine

/-- `s` with what a storing instruction `i` commits when it stores `v` at `d` (rules R121, R122). -/
def State.commitStore (s : State) (i : Instr) (d : Nat) (v : Int) : State :=
  { s with mem := s.mem.set d v, ip := s.ip + i.length, cur := s.cur + i.inputsTaken }

theorem State.commitStore_mem_ne {s : State} {i : Instr} {d a : Nat} {v : Int} (h : a ≠ d) :
    (s.commitStore i d v).mem[a]? = s.mem[a]? := List.getElem?_set_ne h.symm

theorem State.commitStore_mem_same {s : State} {i : Instr} {d : Nat} {v : Int} (h : d < s.mem.length) :
    (s.commitStore i d v).mem[d]? = some v := List.getElem?_set_self h

/-- Only a storing instruction stores, and it does so at its destination. -/
theorem Stores.destinationIs {i : Instr} {s : State} {d : Nat} {v : Int} (h : Stores i s d v) :
    ∃ n, i.destination = some n ∧ DestinationIs s n d := by
  cases i with
  | add _ | mul _ | lt _ | eq _ =>
    obtain ⟨-, -, ⟨-, -, hd⟩, -⟩ := h
    exact ⟨3, rfl, hd⟩
  | inp _ => exact ⟨1, rfl, h.1⟩
  | out _ | jt _ | jf _ | halt _ => exact h.elim

theorem narrow_eq_ok_iff_fitsCell {cb : CellBits} {r v : Int} : narrow cb r = .ok v ↔ v = r ∧ FitsCell cb v := by
  rw [narrow_eq_ok_iff, ← fitsCell_iff_inRange]
  exact and_congr_right fun h => by rw [h]

/-- LT and EQ store 1 exactly where their condition holds, 0 where it does not. -/
theorem truthValue_eq_iff {p : Prop} [Decidable p] {v : Int} :
    truthValue (decide p) = v ↔ (p ∧ v = 1) ∨ (¬p ∧ v = 0) := by
  by_cases hp : p <;> simp [truthValue, hp, eq_comm]

/-- A four-cell instruction completes exactly by committing its result at its destination. -/
theorem computeAndStore_eq_ok_iff_operands {i : Instr} {f : Int → Int → Except FatalCondition Int} {s t : State} :
    computeAndStore i f s = .ok t ↔
      ∃ d v, (∃ a b, FourCellOperands i s a b d ∧ f a b = .ok v) ∧
        t = (s.withMem (s.mem.set d v)).advance i.length := by
  simp only [computeAndStore_eq_ok_iff, FourCellOperands, paramReads_iff, destinationIs_iff]
  constructor
  · rintro ⟨a, b, d, v, ha, hb, hd, hv, rfl⟩
    obtain ⟨k, rfl, -⟩ := dstParam_ok_nat hd
    exact ⟨k, v, ⟨a, b, ⟨ha, hb, hd⟩, hv⟩, rfl⟩
  · rintro ⟨d, v, ⟨a, b, ⟨ha, hb, hd⟩, hv⟩, rfl⟩
    exact ⟨a, b, d, v, ha, hb, hd, hv, rfl⟩

theorem pullAndStore_eq_ok_iff_stores {modes : ModeDigits} {s t : State} :
    pullAndStore (.inp modes) s = .ok t ↔
      ∃ d v, Stores (.inp modes) s d v ∧ t = s.commitStore (.inp modes) d v := by
  simp only [pullAndStore_eq_ok_iff, Stores, destinationIs_iff]
  constructor
  · rintro ⟨d, v, hd, hv, rfl⟩
    obtain ⟨k, rfl, -⟩ := dstParam_ok_nat hd
    exact ⟨k, v, ⟨hd, hv⟩, rfl⟩
  · rintro ⟨d, v, ⟨hd, hv⟩, rfl⟩
    exact ⟨d, v, hd, hv, rfl⟩

/-- A storing instruction completes exactly by committing the store its rule gives. -/
theorem effect_eq_ok_iff_stores {i : Instr} {n : Nat} {s t : State} (hi : i.destination = some n) :
    effect i s = .ok t ↔ ∃ d v, Stores i s d v ∧ t = s.commitStore i d v := by
  cases i with
  | add _ | mul _ =>
    simp only [effect, computeAndStore_eq_ok_iff_operands, narrow_eq_ok_iff_fitsCell, Stores]
    rfl
  | lt _ | eq _ =>
    simp only [effect, computeAndStore_eq_ok_iff_operands, Except.ok.injEq, truthValue_eq_iff, Int.not_lt, Stores,
      ne_eq]
    rfl
  | inp _ => exact pullAndStore_eq_ok_iff_stores
  | out _ | jt _ | jf _ | halt _ => cases hi

/-! ## MemRead and MemWrite (rules R51 to R53) -/

theorem not_valid_of_outside {mem : List Int} {a : Int} (h : a < 0 ∨ (mem.length : Int) ≤ a) :
    ¬(0 ≤ a ∧ a < (mem.length : Int)) := by omega

/-- Settles O9, from what a read answers inside memory and what it raises outside. -/
theorem memReadIsBounded : Obligations.MemReadIsBounded := by
  refine fun mem a => ⟨fun h => memRead_eq_error_iff.mpr ⟨rfl, not_valid_of_outside h⟩, ?_⟩
  rintro k hk rfl
  exact memRead_eq_ok_iff.mpr ⟨Int.natCast_nonneg k, List.getElem?_eq_getElem hk⟩

/-- Settles O10: a write is the library's `List.set` at a valid address, and every address `Dst(N)` answers is one. -/
theorem memWriteSetsOneCell : Obligations.MemWriteSetsOneCell := by
  refine fun mem a v => ⟨fun h => memWrite_eq_error_iff.mpr ⟨rfl, not_valid_of_outside h⟩, ?_, fun s n d hd => ?_⟩
  · rintro k hk rfl
    exact ⟨mem.set k v, memWrite_eq_ok_iff.mpr ⟨rfl, by omega, by omega⟩, List.length_set,
      List.getElem?_set_self hk, fun j hj => List.getElem?_set_ne hj.symm⟩
  · obtain ⟨-, hvalid⟩ := dstParam_eq_ok_iff.mp hd
    exact ⟨_, memWrite_eq_ok_iff.mpr ⟨rfl, hvalid⟩⟩

/-! ## The frame of the storing instructions (rules R53, R119, R122) -/

/-- Settles O29: a storing instruction commits one store at `Dst(N)`, or enters a fatal condition. -/
theorem frameOfStoringInstructions : Obligations.FrameOfStoringInstructions := by
  intro i n modes s t hin h
  obtain ⟨hdst, htaken⟩ : i.destination = some n ∧ (i ≠ .inp modes → i.inputsTaken = 0) := by
    simp only [List.mem_cons, List.not_mem_nil, or_false, Prod.mk.injEq] at hin
    obtain ⟨rfl, rfl⟩ | ⟨rfl, rfl⟩ | ⟨rfl, rfl⟩ | ⟨rfl, rfl⟩ | ⟨rfl, rfl⟩ := hin <;>
      simp [Instr.destination, Instr.inputsTaken]
  obtain he | ⟨c, -, rfl⟩ := exec_eq_next_iff.mp h
  · obtain ⟨k, v, hst, rfl⟩ := (effect_eq_ok_iff_stores hdst).mp he
    obtain ⟨m, hm, hk⟩ := hst.destinationIs
    cases hdst.symm.trans hm
    rw [destinationIs_iff] at hk
    refine ⟨fun d hd a ha => ?_, fun c hc => ?_, List.length_set, rfl, rfl, rfl,
      fun hne => congrArg (s.cur + ·) (htaken hne), .inl ⟨rfl, rfl, rfl⟩⟩
    · cases hk.symm.trans hd
      exact State.commitStore_mem_ne (by omega)
    · cases hk.symm.trans hc
  · exact ⟨fun _ _ _ _ => rfl, fun _ _ _ => rfl, rfl, rfl, rfl, rfl, fun _ => rfl,
      .inr ⟨c, raiseFatal_eq_faulted c s⟩⟩

/-! ## Self-modification (rules R62, R63, R251) -/

/-- A running engine that executes a storing instruction commits its store. -/
theorem step_of_stores {s : State} {w : Int} {i : Instr} {d : Nat} {v : Int} (hs : s.status = .running)
    (hw : s.mem[s.ip]? = some w) (hi : decode w = .ok i) (hst : Stores i s d v) :
    step s = .next (s.commitStore i d v) := by
  obtain ⟨n, hn, -⟩ := hst.destinationIs
  rw [step_of_fetchInstr_ok hs (fetchInstr_eq_ok_iff.mpr ⟨w, hw, hi⟩), exec_eq_next_iff]
  exact .inl ((effect_eq_ok_iff_stores hn).mpr ⟨d, v, hst, rfl⟩)

/-- Settles O45: a fetch and a parameter read look at memory as the store left it. -/
theorem selfModificationIsSeenByTheNextFetch : Obligations.SelfModificationIsSeenByTheNextFetch := by
  refine ⟨fun s w i d v hs hw hi hst => ?_, rfl, rfl⟩
  obtain ⟨-, -, -, hd⟩ := hst.destinationIs
  have hv : (s.commitStore i d v).mem[d]? = some v := State.commitStore_mem_same hd
  refine ⟨s.commitStore i d v, step_of_stores hs hw hi hst, hs, rfl, hv, fun a => State.commitStore_mem_ne, ?_,
    fetchWord_eq_ok_iff.mpr hv, fun n hn => rawParam_eq_ok_iff.mpr (hn ▸ hv)⟩
  intro hip j hj
  exact step_of_fetchInstr_ok hs (fetchInstr_eq_ok_iff.mpr ⟨v, hip ▸ hv, hj⟩)

end Sys2Proof.Machine
end

section
/-! PROOFS. The words of the instructions: decoding and encoding are inverse to each other, and what the decoder reads
from a word, digit by digit. Settles O1, O2, O3, O4, O5 and O7. -/

namespace Sys2Proof

/-! ## The two parts of an instruction's word (rules R81, R82) -/

theorem encode_opcodeDigits (i : Instr) : Laws.OpcodeDigits.Statement i := by
  cases i with
  | add m => exact Laws.OpcodeDigits.add m
  | mul m => exact Laws.OpcodeDigits.mul m
  | inp m => exact Laws.OpcodeDigits.inp m
  | out m => exact Laws.OpcodeDigits.out m
  | jt m => exact Laws.OpcodeDigits.jt m
  | jf m => exact Laws.OpcodeDigits.jf m
  | lt m => exact Laws.OpcodeDigits.lt m
  | eq m => exact Laws.OpcodeDigits.eq m
  | halt m => exact Laws.OpcodeDigits.halt m

/-! ## Decimal digits (rule R82) -/

/-- No number's last, most significant digit is 0. -/
theorem decimalDigits_getLast?_ne_zero (n : Nat) : (decimalDigits n).getLast? ≠ some 0 := by
  rw [decimalDigits_eq]
  rcases Nat.eq_zero_or_pos n with rfl | hn
  · simp
  · rw [List.getLast?_eq_some_getLast (Nat.digits_ne_nil_iff_ne_zero.mpr hn.ne')]
    exact fun h => Nat.getLast_digit_ne_zero 10 hn.ne' (Option.some.inj h)

theorem lt_pow_decimalDigits_length (n : Nat) : n < 10 ^ (decimalDigits n).length := by
  rw [decimalDigits_eq]
  exact Nat.lt_base_pow_length_digits (by decide)

theorem decimalDigits_length_pos {n : Nat} (hn : n ≠ 0) : 0 < (decimalDigits n).length := by
  rw [decimalDigits_eq]
  exact List.length_pos_iff.mpr (Nat.digits_ne_nil_iff_ne_zero.mpr hn)

theorem pow_decimalDigits_length_le {n : Nat} (hn : n ≠ 0) : 10 ^ ((decimalDigits n).length - 1) ≤ n := by
  have hle : 10 ^ (decimalDigits n).length ≤ 10 * n := by
    rw [decimalDigits_eq]
    exact Nat.base_pow_length_digits_le 10 n (by decide) hn
  obtain ⟨k, hk⟩ := Nat.exists_eq_add_one_of_ne_zero (decimalDigits_length_pos hn).ne'
  rw [hk, Nat.pow_succ] at hle
  rw [hk, Nat.add_sub_cancel]
  omega

/-- Mode digits are well formed exactly when they are the decimal digits of the number they make. -/
theorem wellFormed_iff {i : Instr} : i.wellFormed = true ↔ decimalDigits (digitsValue i.modes) = i.modes := by
  constructor
  · intro h
    simp only [Instr.wellFormed, ModeDigits.areDecimal, ModeDigits.noLeadingZero, Bool.and_eq_true, List.all_eq_true,
      decide_eq_true_eq, bne_iff_ne] at h
    obtain ⟨hdigits, hlast⟩ := h
    rw [decimalDigits_eq, digitsValue_eq]
    refine Nat.digits_ofDigits 10 (by decide) _ hdigits fun hne h0 => hlast ?_
    rw [List.getLast?_eq_some_getLast hne, h0]
  · intro h
    have hdigits : ∀ d ∈ i.modes, d < 10 := fun d hd => decimalDigits_lt (h.symm ▸ hd)
    have hlast : i.modes.getLast? ≠ some 0 := h ▸ decimalDigits_getLast?_ne_zero _
    simpa [Instr.wellFormed, ModeDigits.areDecimal, ModeDigits.noLeadingZero] using And.intro hdigits hlast

/-! ## Decoding and encoding (rules R81, R82, R87) -/

/-- Settles O1: the word's two parts are the opcode and the number the mode digits make, whose decimal digits are the
mode digits again. -/
theorem decodeInvertsEncode : Obligations.DecodeInvertsEncode := by
  intro i hi
  obtain ⟨hop, hmodes⟩ := encode_opcodeDigits i
  refine decode_eq_ok_iff.mpr ⟨Int.natCast_nonneg _, hop.symm, ?_⟩
  rw [Int.toNat_natCast, hmodes, wellFormed_iff.mp hi]

/-- Settles O2: the mode digits of a decoded cell are the decimal digits of the cell divided by 100. -/
theorem encodeInvertsDecode : Obligations.EncodeInvertsDecode := by
  intro w i h
  obtain ⟨hw, hop, hmodes⟩ := decode_eq_ok_iff.mp h
  refine ⟨?_, wellFormed_iff.mpr (by rw [hmodes, digitsValue_decimalDigits])⟩
  rw [encode, hop, hmodes, digitsValue_decimalDigits]
  omega

/-! ## The decoder's outputs (rules R82, R83, R96) -/

/-- The mode accessor gives the digit of the word two places above the position (rule R83). -/
theorem modeAt_decodeWord (w k : Nat) : modeAt (decodeWord w).modes k = w / 10 ^ (k + 2) % 10 := by
  rw [decodeWord, modeAt, decimalDigits_getD, digit, Nat.div_div_eq_div_mul, Nat.pow_add, Nat.mul_comm]

/-- Inside the list the mode accessor gives its element (rule R83). -/
theorem getElem?_eq_modeAt {modes : ModeDigits} {k : Nat} (hk : k < modes.length) :
    modes[k]? = some (modeAt modes k) := by
  rw [modeAt, List.getD_eq_getElem _ _ hk, List.getElem?_eq_getElem hk]

/-- Beyond the list the mode accessor gives 0, position mode (rule R83). -/
theorem modeAt_of_length_le {modes : ModeDigits} {k : Nat} (hk : modes.length ≤ k) : modeAt modes k = 0 :=
  List.getD_eq_default _ _ hk

/-- Settles O3, from the number of decimal digits of the word divided by 100 and the value of each. -/
theorem decoderReturnsOpcodeAndDigits : Obligations.DecoderReturnsOpcodeAndDigits := by
  refine ⟨fun w => ⟨rfl, fun k hk => ?_, lt_pow_decimalDigits_length _, fun hw => ?_, fun hw => ?_,
    decimalDigits_getLast?_ne_zero _⟩, by decide⟩
  · rw [getElem?_eq_modeAt hk, modeAt_decodeWord]
  · rw [decodeWord, Nat.div_eq_of_lt hw]
    rfl
  · have hpos : w / 100 ≠ 0 := by omega
    exact ⟨pow_decimalDigits_length_le hpos, decimalDigits_length_pos hpos⟩

/-- Settles O4: the accessor's three descriptions. -/
theorem modeAccessorIsTheDigit : Obligations.ModeAccessorIsTheDigit := fun w k =>
  ⟨getElem?_eq_modeAt, modeAt_of_length_le, modeAt_decodeWord w k⟩

/-- Settles O5: each mode output of the block is the accessor's digit. -/
theorem decoderBlockPorts : Obligations.DecoderBlockPorts := by
  intro w
  have hm (k : Nat) : modeAt (decodeWord w).modes k ≤ 9 := by
    rw [modeAt_decodeWord]
    omega
  exact ⟨rfl, Nat.le_of_lt_succ (Nat.mod_lt w (by decide)), modeAt_decodeWord w 0, modeAt_decodeWord w 1,
    modeAt_decodeWord w 2, hm 0, hm 1, hm 2, rfl⟩

/-- Settles O7, by running the decoder on the thirteen words. -/
theorem wordsDecodeToTheirInstructions : Obligations.WordsDecodeToTheirInstructions := by
  unfold Obligations.WordsDecodeToTheirInstructions
  decide

end Sys2Proof
end

section
/-! PROOFS. What the encoding of an instruction does to its execution: lengths, listing lines, and mode digits and
opcodes that are ignored or refused. Settles O6, O8, O27, O38 and O39. -/

namespace Sys2Proof.Machine

/-! ## Lengths (rules R88, R121) -/

theorem length_of_opcode (i : Instr) :
    (i.opcode = 1 ∨ i.opcode = 2 ∨ i.opcode = 7 ∨ i.opcode = 8 → i.length = 4) ∧
    (i.opcode = 3 ∨ i.opcode = 4 → i.length = 2) ∧
    (i.opcode = 5 ∨ i.opcode = 6 → i.length = 3) ∧
    (i.opcode = 99 → i.length = 1) := by
  cases i <;> simp [Instr.opcode, Instr.length, Instr.arity]

/-- A completed instruction moved the pointer by its length, took a jump, or was HALT (rules R121, R162, R180). -/
theorem effect_ok_pointer {i : Instr} {s t : State} (h : effect i s = .ok t) :
    t.ip = s.ip + i.length ∨
      (∃ a, ParamReads i s 1 a ∧ ((i.opcode = 5 ∧ a ≠ 0) ∨ (i.opcode = 6 ∧ a = 0))) ∨
      t.status = .halted := by
  cases i with
  | add _ | mul _ | lt _ | eq _ =>
    unfold effect at h
    obtain ⟨_, _, _, _, -, -, -, -, rfl⟩ := computeAndStore_eq_ok_iff.mp h
    exact .inl rfl
  | inp _ =>
    obtain ⟨_, _, -, -, rfl⟩ := pullAndStore_eq_ok_iff.mp h
    exact .inl rfl
  | out _ =>
    obtain ⟨_, -, rfl⟩ := readAndAppend_eq_ok_iff.mp h
    exact .inl rfl
  | jt _ =>
    obtain ⟨a, ha, ⟨-, rfl⟩ | ⟨hp, -⟩⟩ := jumpWhen_eq_ok_iff.mp h
    · exact .inl rfl
    · exact .inr (.inl ⟨a, paramReads_iff.mpr ha, .inl ⟨rfl, of_decide_eq_true hp⟩⟩)
  | jf _ =>
    obtain ⟨a, ha, ⟨-, rfl⟩ | ⟨hp, -⟩⟩ := jumpWhen_eq_ok_iff.mp h
    · exact .inl rfl
    · exact .inr (.inl ⟨a, paramReads_iff.mpr ha, .inr ⟨rfl, of_decide_eq_true hp⟩⟩)
  | halt _ =>
    cases h
    exact .inr (.inr rfl)

/-- Settles O6: the opcode is the word modulo 100, and an instruction that completes and does not stop the engine
advances by its length or takes a jump. -/
theorem lengthDependsOnOpcodeAlone : Obligations.LengthDependsOnOpcodeAlone := by
  intro w i hdec
  obtain ⟨-, hop, -⟩ := decode_eq_ok_iff.mp hdec
  rw [Int.toNat_natCast] at hop
  obtain ⟨h4, h2, h3, h1⟩ := length_of_opcode i
  rw [← hop]
  refine ⟨rfl, h4, h2, h3, h1, fun s t _ hexec hrun => ?_⟩
  obtain he | ⟨c, -, rfl⟩ := exec_eq_next_iff.mp hexec
  · obtain hip | hjump | hhalt := effect_ok_pointer he
    · exact .inl hip
    · exact .inr hjump
    · cases hhalt.symm.trans hrun
  · cases hrun

/-! ## Listing lines (rules R101, R102) -/

/-- The mode digits of the word of a listing line, `A` and `B` of rule R102, as the decoder lists them. -/
def listingModes (a b : Nat) : ModeDigits := decimalDigits (a + 10 * b)

theorem decode_listingWord {i : Instr} {a b : Nat} (hi : i.modes = listingModes a b) :
    decode (listingWord i.opcode a b) = .ok i := by
  have hop : i.opcode < 100 := (encode_opcodeDigits i).1 ▸ Nat.mod_lt _ (by decide)
  refine decode_eq_ok_iff.mpr ⟨Int.natCast_nonneg _, ?_, ?_⟩
  · rw [listingWord, Int.toNat_natCast]
    omega
  · rw [listingWord, Int.toNat_natCast, hi, listingModes]
    congr 1
    omega

theorem modeDigit_listingModes {i : Instr} {a b : Nat} (hi : i.modes = listingModes a b) (ha : a < 10) (hb : b < 10) :
    i.modeDigit 1 = a ∧ i.modeDigit 2 = b ∧ i.modeDigit 3 = 0 := by
  have hdigit (k : Nat) : i.modeDigit k = digit (a + 10 * b) (k - 1) := by
    rw [Instr.modeDigit, hi, modeAt, listingModes, decimalDigits_getD]
  simp only [hdigit, digit]
  omega

theorem ReadOperand.modeDigit_lt (x : ReadOperand) : x.modeDigit < 10 := by
  cases x <;> simp [ReadOperand.modeDigit]

/-- The four-cell line of an instruction with the line's mode digits (rule R102). -/
theorem cellsF3_encode {i : Instr} {x y : ReadOperand} (hi : i.modes = listingModes x.modeDigit y.modeDigit)
    (hlen : i.length = 4) (d : Int) :
    ∃ w j, cellsF3 i.opcode x y d = [w, x.cell, y.cell, d] ∧ decode w = .ok j ∧ j.opcode = i.opcode ∧
      j.length = 4 ∧ j.modeDigit 1 = x.modeDigit ∧ j.modeDigit 2 = y.modeDigit ∧ j.modeDigit 3 = 0 :=
  ⟨_, i, rfl, decode_listingWord hi, rfl, hlen, modeDigit_listingModes hi x.modeDigit_lt y.modeDigit_lt⟩

/-- The jump line of an instruction with the line's mode digits (rule R102). -/
theorem cellsF2_encode {i : Instr} {x y : ReadOperand} (hi : i.modes = listingModes x.modeDigit y.modeDigit)
    (hlen : i.length = 3) :
    ∃ w j, cellsF2 i.opcode x y = [w, x.cell, y.cell] ∧ decode w = .ok j ∧ j.opcode = i.opcode ∧
      j.length = 3 ∧ j.modeDigit 1 = x.modeDigit ∧ j.modeDigit 2 = y.modeDigit := by
  obtain ⟨h1, h2, -⟩ := modeDigit_listingModes hi x.modeDigit_lt y.modeDigit_lt
  exact ⟨_, i, rfl, decode_listingWord hi, rfl, hlen, h1, h2⟩

/-- Settles O8: a line's word is its opcode with the mode digits of its read operands above. -/
theorem listingLinesEncodeTheirInstruction : Obligations.ListingLinesEncodeTheirInstruction := by
  intro x y d
  refine ⟨fun line opcode hline => ?_, fun line opcode hline => ?_, ?_, ?_, ?_⟩
  · simp only [List.mem_cons, List.not_mem_nil, or_false, Prod.mk.injEq] at hline
    obtain ⟨rfl, rfl⟩ | ⟨rfl, rfl⟩ | ⟨rfl, rfl⟩ | ⟨rfl, rfl⟩ := hline
    · exact cellsF3_encode (i := .add (listingModes _ _)) rfl rfl d
    · exact cellsF3_encode (i := .mul (listingModes _ _)) rfl rfl d
    · exact cellsF3_encode (i := .lt (listingModes _ _)) rfl rfl d
    · exact cellsF3_encode (i := .eq (listingModes _ _)) rfl rfl d
  · simp only [List.mem_cons, List.not_mem_nil, or_false, Prod.mk.injEq] at hline
    obtain ⟨rfl, rfl⟩ | ⟨rfl, rfl⟩ := hline
    · exact cellsF2_encode (i := .jt (listingModes _ _)) rfl rfl
    · exact cellsF2_encode (i := .jf (listingModes _ _)) rfl rfl
  · have hi : (Instr.out (listingModes x.modeDigit 0)).modes = listingModes x.modeDigit 0 := rfl
    exact ⟨_, _, rfl, decode_listingWord hi, rfl, rfl, (modeDigit_listingModes hi x.modeDigit_lt (by decide)).1⟩
  · exact ⟨_, .inp [], rfl, rfl, rfl, rfl, rfl⟩
  · exact ⟨_, .halt [], rfl, rfl, rfl, rfl⟩

/-! ## Mode digits that are not consulted (rule R94) -/

/-- Of the mode digits Read(N) consults the one of parameter N, and the word only where that digit is no mode. -/
theorem readParam_eq_of_modeDigit {i j : Instr} {n : Nat} {s : State} (hmode : i.modeDigit n ≤ 1)
    (heq : j.modeDigit n = i.modeDigit n) : readParam i n s = readParam j n s := by
  unfold readParam
  rw [heq]
  obtain h | h : i.modeDigit n = 0 ∨ i.modeDigit n = 1 := by omega
  · rw [h]; rfl
  · rw [h]; rfl

section
variable {i j : Instr} {s : State} (h1 : readParam i 1 s = readParam j 1 s)
include h1

theorem readAndAppend_eq_of_read (hlen : i.length = j.length) : readAndAppend i s = readAndAppend j s := by
  unfold readAndAppend
  rw [hlen, h1]

variable (h2 : readParam i 2 s = readParam j 2 s)
include h2

theorem computeAndStore_eq_of_reads (hlen : i.length = j.length) (f : Int → Int → Except FatalCondition Int) :
    computeAndStore i f s = computeAndStore j f s := by
  unfold computeAndStore
  rw [hlen, h1, h2]

theorem jumpWhen_eq_of_reads (hlen : i.length = j.length) (p : Int → Bool) :
    jumpWhen i p s = jumpWhen j p s := by
  unfold jumpWhen
  rw [hlen, h1, h2]

end

/-- Settles O27: an instruction consults its mode digits in its reads alone. -/
theorem unconsultedDigitsAreIgnored : Obligations.UnconsultedDigitsAreIgnored := by
  intro m m' s
  refine ⟨rfl, rfl, fun h0 h0' => ?_, fun h0 h0' h1 h1' => ?_⟩
  · exact congrArg (conclude s) (readAndAppend_eq_of_read (readParam_eq_of_modeDigit h0 h0') rfl)
  · refine ⟨?add, ?mul, ?lt, ?eq, ?jt, ?jf⟩
    case add | mul | lt | eq =>
      refine congrArg (conclude s) (computeAndStore_eq_of_reads ?_ ?_ ?_ _)
      · exact readParam_eq_of_modeDigit h0 h0'
      · exact readParam_eq_of_modeDigit h1 h1'
      · rfl
    case jt | jf =>
      refine congrArg (conclude s) (jumpWhen_eq_of_reads ?_ ?_ ?_ _)
      · exact readParam_eq_of_modeDigit h0 h0'
      · exact readParam_eq_of_modeDigit h1 h1'
      · rfl

/-! ## Opcodes that are not defined (rules R91, R204) -/

theorem step_of_decode_error {s : State} {w : Int} {r : DecodeReject} (hs : s.status = .running)
    (hw : s.mem[s.ip]? = some w) (hr : decode w = .error r) : step s = .next (raiseFatal (fatalOfReject r) s) :=
  step_eq_next_iff.mpr (after_of_fetch_error hs (fetchInstr_eq_error_iff.mpr (.inr ⟨w, r, hw, hr, rfl⟩)))

/-- A word that is not negative is rejected exactly for its opcode (rule R91). -/
theorem decode_natCast_eq_error_iff {w : Nat} {r : DecodeReject} :
    decode (w : Int) = .error r ↔
      (w % 100 = 0 ∨ (9 ≤ w % 100 ∧ w % 100 ≤ 98)) ∧ r = .unknownOpcode (w % 100) := by
  rw [decode_eq_error_iff, Int.toNat_natCast]
  constructor
  · rintro (⟨hneg, -⟩ | ⟨-, h1, h99, rfl⟩)
    · omega
    · exact ⟨by omega, rfl⟩
  · rintro ⟨hop, rfl⟩
    exact .inr ⟨by omega, by omega, by omega, rfl⟩

/-- Settles O38: the opcodes the dispatch rejects are 0 and 9 to 98. -/
theorem illegalOpcodeFaults : Obligations.IllegalOpcodeFaults := by
  refine ⟨fun s w hs hw hop => ?_, fun w hop => ?_, by decide⟩
  · exact step_of_decode_error hs hw (decode_natCast_eq_error_iff.mpr ⟨hop, rfl⟩)
  · cases h : decode (w : Int) with
    | ok i => exact ⟨i, rfl⟩
    | error r => exact absurd (decode_natCast_eq_error_iff.mp h).1 hop

end Sys2Proof.Machine

namespace Sys2Proof

/-! ## Mode digits that are no modes (rules R93, R120, R208) -/

/-- The instruction reads parameter 1. -/
def Instr.ReadsFirst : Instr → Prop
  | .add _ | .mul _ | .out _ | .jt _ | .jf _ | .lt _ | .eq _ => True
  | .inp _ | .halt _ => False

/-- The instruction reads parameter 2 once parameter 1 has delivered `a`: a jump only when `a` takes it (rule R163). -/
def Instr.ReadsSecond (i : Instr) (a : Int) : Prop :=
  match i with
  | .add _ | .mul _ | .lt _ | .eq _ => True
  | .jt _ => a ≠ 0
  | .jf _ => a = 0
  | .inp _ | .out _ | .halt _ => False

end Sys2Proof

namespace Sys2Proof.Machine

theorem readParam_of_invalid_mode {i : Instr} {n : Nat} {s : State} {raw : Int} (hraw : s.mem[s.ip + n]? = some raw)
    (hmode : 2 ≤ i.modeDigit n) : readParam i n s = .error (.invalidParameterMode (encode i)) :=
  readParam_eq_error_iff.mpr (.inr ⟨raw, hraw, .inl ⟨hmode, rfl⟩⟩)

theorem effect_error_of_readParam_one {i : Instr} {s : State} {c : FatalCondition} (hi : i.ReadsFirst)
    (h1 : readParam i 1 s = .error c) : effect i s = .error c := by
  cases i with
  | add _ | mul _ | lt _ | eq _ =>
    unfold effect
    exact computeAndStore_eq_error_iff.mpr (.inl h1)
  | out _ => exact readAndAppend_eq_error_iff.mpr h1
  | jt _ | jf _ => exact jumpWhen_eq_error_iff.mpr (.inl h1)
  | inp _ | halt _ => exact hi.elim

theorem effect_error_of_readParam_two {i : Instr} {s : State} {a : Int} {c : FatalCondition} (hi : i.ReadsSecond a)
    (h1 : readParam i 1 s = .ok a) (h2 : readParam i 2 s = .error c) : effect i s = .error c := by
  cases i with
  | add _ | mul _ | lt _ | eq _ =>
    unfold effect
    exact computeAndStore_eq_error_iff.mpr (.inr ⟨a, h1, .inl h2⟩)
  | jt _ | jf _ => exact jumpWhen_eq_error_iff.mpr (.inr ⟨a, h1, decide_eq_true hi, .inl h2⟩)
  | inp _ | out _ | halt _ => exact hi.elim

/-- IN and HALT of a running engine raise no `InvalidParameterMode` (rule R94). -/
theorem exec_ne_invalid_mode {i : Instr} {s t : State} (hi : ¬i.ReadsFirst) (hs : s.status = .running)
    (h : exec i s = .next t) : ¬(t.status = .faulted ∧ t.fcause = 8) := by
  obtain he | ⟨c, he, rfl⟩ := exec_eq_next_iff.mp h
  · cases i with
    | inp _ =>
      obtain ⟨_, _, -, -, rfl⟩ := pullAndStore_eq_ok_iff.mp he
      simp [hs]
    | halt _ => cases he; simp
    | add _ | mul _ | lt _ | eq _ | out _ | jt _ | jf _ => exact absurd trivial hi
  · cases i with
    | inp _ =>
      obtain hd | ⟨-, -, -, rfl⟩ := pullAndStore_eq_error_iff.mp he
      · obtain ⟨-, rfl⟩ | ⟨-, -, -, rfl⟩ := dstParam_eq_error_iff.mp hd <;> simp [FatalCondition.code]
      · simp [FatalCondition.code]
    | halt _ => cases he
    | add _ | mul _ | lt _ | eq _ | out _ | jt _ | jf _ => exact absurd trivial hi

/-- Settles O39: a read raises for its own mode digit, and the parameters are read in order. -/
theorem invalidModeDigitFaults : Obligations.InvalidModeDigitFaults := by
  intro modes s raw
  refine ⟨fun i hi hraw hmode => ?_, fun i a hi ha hraw hmode => ?_, fun i t hi hs h => ?_⟩
  · obtain ⟨hreads, rfl⟩ : i.ReadsFirst ∧ i.modes = modes := by
      fin_cases hi <;> exact ⟨trivial, rfl⟩
    have he := effect_error_of_readParam_one hreads (readParam_of_invalid_mode hraw hmode)
    exact exec_eq_next_iff.mpr (.inr ⟨_, he, rfl⟩)
  · obtain ⟨hreads, rfl⟩ : i.ReadsSecond a ∧ i.modes = modes := by
      obtain hi | ⟨rfl, htaken⟩ | ⟨rfl, htaken⟩ := hi
      · fin_cases hi <;> exact ⟨trivial, rfl⟩
      · exact ⟨htaken, rfl⟩
      · exact ⟨htaken, rfl⟩
    have he := effect_error_of_readParam_two hreads (paramReads_iff.mp ha) (readParam_of_invalid_mode hraw hmode)
    exact exec_eq_next_iff.mpr (.inr ⟨_, he, rfl⟩)
  · have hreads : ¬i.ReadsFirst := by fin_cases hi <;> exact id
    exact exec_ne_invalid_mode hreads hs h

end Sys2Proof.Machine
end

section
/-! PROOFS. The program text: line breaks, commas, blanks and the token grammar, and the text of an image. Settles O55,
O56 and O57. -/

namespace Sys2Proof.Machine

/-! ## Line breaks (rule R98 step 1) -/

/-- Settles O56: step 1 keeps what stands on both sides of a line break. -/
theorem lineBreaksAreRemoved : Obligations.LineBreaksAreRemoved := by
  intro cb x y c hc
  have hbreak : isLineBreak c = true := by simpa [isLineBreak] using hc
  simp [parseProgram, List.filter_append, hbreak]

/-! ## Commas (rule R98 step 2) -/

theorem splitAtCommas_append_comma (x y : List Char) :
    splitAtCommas (x ++ ',' :: y) = splitAtCommas x ++ splitAtCommas y := by
  induction x with
  | nil => simp [splitAtCommas]
  | cons c x ih =>
    by_cases hc : c = ','
    · simp [splitAtCommas, hc, ih]
    · cases hx : splitAtCommas x with
      | nil => exact absurd hx (splitAtCommas_ne_nil x)
      | cons t ts => simp [splitAtCommas, hc, ih, hx]

theorem splitAtCommas_of_no_comma {x : List Char} (h : ',' ∉ x) : splitAtCommas x = [x] := by
  induction x with
  | nil => rfl
  | cons c x ih =>
    rw [List.mem_cons, not_or] at h
    obtain ⟨hc, hx⟩ := h
    simp [splitAtCommas, Ne.symm hc, ih hx]

theorem parseTokens_append (cb : CellBits) (ts us : List (List Char)) :
    parseTokens cb (ts ++ us) = (parseTokens cb ts).bind fun a => (parseTokens cb us).map (a ++ ·) := by
  induction ts with
  | nil => simp [parseTokens]
  | cons t ts ih =>
    cases ht : parseToken cb t with
    | none => simp [parseTokens, ht]
    | some v =>
      simp only [List.cons_append, parseTokens, ht, ih]
      cases parseTokens cb ts <;> cases parseTokens cb us <;> rfl

/-- The image of a text with a comma is the images of its two sides in order, where both sides have one. -/
theorem parseProgram_append_comma (cb : CellBits) (x y : List Char) :
    parseProgram cb (x ++ ',' :: y) = (parseProgram cb x).bind fun a => (parseProgram cb y).map (a ++ ·) := by
  have hfilter : (x ++ ',' :: y).filter (fun c => !isLineBreak c) =
      x.filter (fun c => !isLineBreak c) ++ ',' :: y.filter (fun c => !isLineBreak c) := by
    simp [List.filter_append, isLineBreak]
  rw [parseProgram, hfilter, splitAtCommas_append_comma, parseTokens_append]
  rfl

/-- A text with no comma is one token. -/
theorem parseProgram_of_no_comma (cb : CellBits) {x : List Char} (h : ',' ∉ x) :
    parseProgram cb x = (parseToken cb (x.filter fun c => !isLineBreak c)).map ([·]) := by
  have hfilter : ',' ∉ x.filter fun c => !isLineBreak c := fun hmem => h (List.mem_of_mem_filter hmem)
  rw [parseProgram, splitAtCommas_of_no_comma hfilter, parseTokens]
  cases parseToken cb (x.filter fun c => !isLineBreak c) <;> rfl

/-! ## Blanks (rule R98 step 3) -/

theorem isBlank_iff {c : Char} : isBlank c = true ↔ c = ' ' ∨ c = '\t' := by
  simp [isBlank]

theorem trimBlanks_eq (t : List Char) : trimBlanks t = (t.dropWhile isBlank).rdropWhile isBlank := rfl

theorem trimBlanks_cons_blank {c : Char} (hc : isBlank c = true) (t : List Char) :
    trimBlanks (c :: t) = trimBlanks t := by
  rw [trimBlanks_eq, List.dropWhile_cons_of_pos hc, trimBlanks_eq]

theorem trimBlanks_concat_blank {c : Char} (hc : isBlank c = true) (t : List Char) :
    trimBlanks (t ++ [c]) = trimBlanks t := by
  rw [trimBlanks_eq, trimBlanks_eq, List.dropWhile_append]
  split
  case isTrue h =>
    rw [List.isEmpty_iff.mp h, List.dropWhile_cons_of_pos hc]
    rfl
  case isFalse => exact List.rdropWhile_concat_pos _ _ _ hc

theorem parseToken_congr {cb : CellBits} {t u : List Char} (h : trimBlanks t = trimBlanks u) :
    parseToken cb t = parseToken cb u := by
  rw [parseToken, h, parseToken]

section
variable {cb : CellBits} {c : Char} (hc : isBlank c = true)
include hc

theorem isLineBreak_of_isBlank : isLineBreak c = false := by
  obtain rfl | rfl := isBlank_iff.mp hc <;> rfl

theorem ne_comma_of_isBlank : ',' ≠ c := by
  rintro rfl
  cases hc

theorem parseProgram_cons_blank_of_no_comma {x : List Char} (hx : ',' ∉ x) :
    parseProgram cb (c :: x) = parseProgram cb x := by
  have hcx : ',' ∉ c :: x := by simp [ne_comma_of_isBlank hc, hx]
  rw [parseProgram_of_no_comma cb hcx, parseProgram_of_no_comma cb hx]
  simp only [List.filter_cons, isLineBreak_of_isBlank hc, Bool.not_false, if_true,
    parseToken_congr (trimBlanks_cons_blank hc _)]

theorem parseProgram_concat_blank_of_no_comma {x : List Char} (hx : ',' ∉ x) :
    parseProgram cb (x ++ [c]) = parseProgram cb x := by
  have hxc : ',' ∉ x ++ [c] := by simp [ne_comma_of_isBlank hc, hx]
  rw [parseProgram_of_no_comma cb hxc, parseProgram_of_no_comma cb hx]
  simp only [List.filter_append, List.filter_cons, List.filter_nil, isLineBreak_of_isBlank hc, Bool.not_false, if_true,
    parseToken_congr (trimBlanks_concat_blank hc _)]

/-- A blank before a text: it is trimmed from the text's first token. -/
theorem parseProgram_cons_blank (x : List Char) : parseProgram cb (c :: x) = parseProgram cb x := by
  by_cases hx : ',' ∈ x
  · obtain ⟨a, b, rfl, ha⟩ := List.eq_append_cons_of_mem hx
    rw [← List.cons_append, parseProgram_append_comma, parseProgram_cons_blank_of_no_comma hc ha,
      parseProgram_append_comma]
  · exact parseProgram_cons_blank_of_no_comma hc hx

/-- A blank after a text: it is trimmed from the text's last token, past every comma. -/
theorem parseProgram_concat_blank (x : List Char) : parseProgram cb (x ++ [c]) = parseProgram cb x := by
  by_cases hx : ',' ∈ x
  · obtain ⟨a, b, hab⟩ := List.append_of_mem hx
    rw [hab, List.append_assoc, List.cons_append, parseProgram_append_comma, parseProgram_concat_blank b,
      parseProgram_append_comma]
  · exact parseProgram_concat_blank_of_no_comma hc hx
termination_by x.length
decreasing_by rw [hab, List.length_append, List.length_cons]; omega

end

/-! ## The token grammar (rule R98 step 4) -/

/-- The character is a decimal digit. -/
def IsDigitChar (c : Char) : Prop := 48 ≤ c.toNat ∧ c.toNat ≤ 57

/-- The text is an optional `-` and one or more decimal digits, of value `v`: a token with no blanks. -/
def NumeralIs (t : List Char) (v : Int) : Prop :=
  ∃ (digits : List Char) (minus : Bool),
    digits ≠ [] ∧ (∀ c ∈ digits, IsDigitChar c) ∧ t = (if minus then ['-'] else []) ++ digits ∧
    v = if minus then -(digitsTextValue digits : Int) else (digitsTextValue digits : Int)

theorem tokenIs_iff {t : List Char} {v : Int} :
    TokenIs t v ↔ ∃ before numeral after,
      (∀ c ∈ before ++ after, isBlank c = true) ∧ t = before ++ numeral ++ after ∧ NumeralIs numeral v := by
  simp only [isBlank_iff]
  constructor
  · rintro ⟨before, digits, after, minus, hblank, hne, hdigits, rfl, rfl⟩
    exact ⟨before, _, after, hblank, rfl, digits, minus, hne, hdigits, rfl, rfl⟩
  · rintro ⟨before, _, after, hblank, rfl, digits, minus, hne, hdigits, rfl, rfl⟩
    exact ⟨before, digits, after, minus, hblank, hne, hdigits, rfl, rfl⟩

theorem digitOfChar_eq_some_iff {c : Char} {d : Nat} :
    digitOfChar c = some d ↔ IsDigitChar c ∧ c.toNat - 48 = d := by
  unfold digitOfChar IsDigitChar
  split <;> simp_all

theorem parseDigits_eq_some_iff {ds : List Char} {acc n : Nat} :
    parseDigits ds acc = some n ↔
      (∀ c ∈ ds, IsDigitChar c) ∧ ds.foldl (fun n c => 10 * n + (c.toNat - 48)) acc = n := by
  induction ds generalizing acc with
  | nil => simp [parseDigits]
  | cons c cs ih =>
    rw [parseDigits, List.forall_mem_cons, List.foldl_cons]
    cases hd : digitOfChar c with
    | none =>
      have hc : ¬IsDigitChar c := fun h => by simp [digitOfChar_eq_some_iff.mpr ⟨h, rfl⟩] at hd
      simp [hc]
    | some d =>
      obtain ⟨hc, rfl⟩ := digitOfChar_eq_some_iff.mp hd
      simp [hc, ih]

theorem parseNatural_eq_some_iff {ds : List Char} {n : Nat} :
    parseNatural ds = some n ↔ ds ≠ [] ∧ (∀ c ∈ ds, IsDigitChar c) ∧ digitsTextValue ds = n := by
  cases ds with
  | nil => simp [parseNatural]
  | cons c cs => simp [parseNatural, parseDigits_eq_some_iff, digitsTextValue]

theorem parseInteger_minus (cs : List Char) :
    parseInteger ('-' :: cs) = (parseNatural cs).map fun n : Nat => -(n : Int) := by
  rw [parseInteger, if_pos rfl]
  cases parseNatural cs <;> rfl

theorem parseInteger_of_head_ne_minus {cs : List Char} (h : cs.head? ≠ some '-') :
    parseInteger cs = (parseNatural cs).map fun n : Nat => (n : Int) := by
  cases cs with
  | nil => rfl
  | cons c cs =>
    rw [parseInteger, if_neg (by simpa using h)]
    cases parseNatural (c :: cs) <;> rfl

theorem isDigitChar_ne_minus {c : Char} (h : IsDigitChar c) : c ≠ '-' := by
  rintro rfl
  exact absurd h.1 (by decide)

theorem parseInteger_eq_some_iff {t : List Char} {v : Int} : parseInteger t = some v ↔ NumeralIs t v := by
  constructor
  · intro h
    by_cases ht : t.head? = some '-'
    · obtain ⟨cs, rfl⟩ := List.head?_eq_some_iff.mp ht
      rw [parseInteger_minus, Option.map_eq_some_iff] at h
      obtain ⟨n, hn, rfl⟩ := h
      obtain ⟨hne, hdigits, rfl⟩ := parseNatural_eq_some_iff.mp hn
      exact ⟨cs, true, hne, hdigits, rfl, rfl⟩
    · rw [parseInteger_of_head_ne_minus ht, Option.map_eq_some_iff] at h
      obtain ⟨n, hn, rfl⟩ := h
      obtain ⟨hne, hdigits, rfl⟩ := parseNatural_eq_some_iff.mp hn
      exact ⟨t, false, hne, hdigits, rfl, rfl⟩
  · rintro ⟨digits, minus, hne, hdigits, rfl, rfl⟩
    have hn := parseNatural_eq_some_iff.mpr ⟨hne, hdigits, rfl⟩
    cases minus with
    | true => exact (parseInteger_minus digits).trans (congrArg _ hn)
    | false =>
      have hhead : digits.head? ≠ some '-' := fun h => isDigitChar_ne_minus (hdigits _ (List.mem_of_head? h)) rfl
      exact (parseInteger_of_head_ne_minus hhead).trans (congrArg _ hn)

theorem NumeralIs.chars {t : List Char} {v : Int} (h : NumeralIs t v) : ∀ c ∈ t, c = '-' ∨ IsDigitChar c := by
  obtain ⟨digits, minus, -, hdigits, rfl, -⟩ := h
  intro c hc
  obtain hc | hc := List.mem_append.mp hc
  · cases minus
    · cases hc
    · exact .inl (List.mem_singleton.mp hc)
  · exact .inr (hdigits c hc)

theorem isBlank_of_numeral_char {c : Char} (h : c = '-' ∨ IsDigitChar c) : isBlank c = false := by
  rw [IsDigitChar] at h
  rw [← Bool.not_eq_true, isBlank_iff]
  rintro (rfl | rfl) <;> exact absurd h (by decide)

/-! ## Tokens (rule R98 steps 3 and 4) -/

theorem exists_blanks_around_trimBlanks (t : List Char) :
    ∃ before after, (∀ c ∈ before ++ after, isBlank c = true) ∧ t = before ++ trimBlanks t ++ after := by
  refine ⟨t.takeWhile isBlank, (t.dropWhile isBlank).rtakeWhile isBlank, fun c hc => ?_, ?_⟩
  · obtain hc | hc := List.mem_append.mp hc
    · exact List.mem_takeWhile_imp hc
    · exact List.mem_rtakeWhile_imp hc
  · rw [trimBlanks_eq, List.append_assoc, List.rdropWhile_append_rtakeWhile, List.takeWhile_append_dropWhile]

theorem trimBlanks_append_right {after : List Char} (h : ∀ c ∈ after, isBlank c = true) (t : List Char) :
    trimBlanks (t ++ after) = trimBlanks t := by
  induction after generalizing t with
  | nil => rw [List.append_nil]
  | cons c after ih =>
    obtain ⟨hc, hafter⟩ := List.forall_mem_cons.mp h
    rw [List.append_cons, ih hafter, trimBlanks_concat_blank hc]

theorem trimBlanks_append_left {before : List Char} (h : ∀ c ∈ before, isBlank c = true) (t : List Char) :
    trimBlanks (before ++ t) = trimBlanks t := by
  rw [trimBlanks_eq, List.dropWhile_append_of_pos h, trimBlanks_eq]

theorem trimBlanks_eq_self {t : List Char} (h : ∀ c ∈ t, isBlank c = false) : trimBlanks t = t := by
  have hleft : t.dropWhile isBlank = t :=
    List.dropWhile_eq_self_iff.mpr fun hlen => by simp [h _ (List.getElem_mem hlen)]
  rw [trimBlanks_eq, hleft]
  exact List.rdropWhile_eq_self_iff.mpr fun hne => by simp [h _ (List.getLast_mem hne)]

/-- Trimming and reading a text gives exactly the value of the token it is. -/
theorem parseInteger_trimBlanks_eq_some_iff {t : List Char} {v : Int} :
    parseInteger (trimBlanks t) = some v ↔ TokenIs t v := by
  rw [parseInteger_eq_some_iff, tokenIs_iff]
  constructor
  · intro h
    obtain ⟨before, after, hblank, ht⟩ := exists_blanks_around_trimBlanks t
    exact ⟨before, _, after, hblank, ht, h⟩
  · rintro ⟨before, numeral, after, hblank, rfl, h⟩
    rw [List.forall_mem_append] at hblank
    obtain ⟨hbefore, hafter⟩ := hblank
    have hnumeral := trimBlanks_eq_self fun c hc => isBlank_of_numeral_char (h.chars c hc)
    rwa [trimBlanks_append_right hafter, trimBlanks_append_left hbefore, hnumeral]

theorem parseToken_eq_some_iff {cb : CellBits} {t : List Char} {v : Int} :
    parseToken cb t = some v ↔ TokenIs t v ∧ FitsCell cb v := by
  rw [← parseInteger_trimBlanks_eq_some_iff, fitsCell_iff_inRange, parseToken]
  cases parseInteger (trimBlanks t) with
  | none => simp
  | some w =>
    simp only [Option.ite_none_right_eq_some, Option.some.injEq]
    constructor
    · rintro ⟨hw, rfl⟩
      exact ⟨rfl, hw⟩
    · rintro ⟨rfl, hw⟩
      exact ⟨hw, rfl⟩

/-- A text that is one token and holds no line break has the token's value as its image. -/
theorem parseProgram_eq_some_iff_of_one_token {cb : CellBits} {x : List Char} {image : List Int}
    (hx : ∀ c ∈ x, c ≠ ',' ∧ c ≠ '\n' ∧ c ≠ '\r') :
    parseProgram cb x = some image ↔ ∃ v, TokenIs x v ∧ FitsCell cb v ∧ image = [v] := by
  have hcomma : ',' ∉ x := fun h => (hx _ h).1 rfl
  have hfilter : x.filter (fun c => !isLineBreak c) = x :=
    List.filter_eq_self.mpr fun c hc => by simp [isLineBreak, hx c hc]
  rw [parseProgram_of_no_comma cb hcomma, hfilter, Option.map_eq_some_iff]
  simp only [parseToken_eq_some_iff, and_assoc, eq_comm (a := image)]

/-- Settles O57: the four clauses are the parser's steps, and the refused texts are run. -/
theorem commasSeparateTokens : Obligations.CommasSeparateTokens := by
  refine ⟨fun cb x y => ⟨fun a b ha hb => ?_, fun h => ?_, fun c hc => ?_, fun hx image => ?_⟩, ?_, by decide⟩
  · simp [parseProgram_append_comma, ha, hb]
  · obtain h | h := h <;> simp [parseProgram_append_comma, h]
  · have hblank := isBlank_iff.mpr hc
    exact ⟨parseProgram_cons_blank hblank x, parseProgram_concat_blank hblank x⟩
  · exact parseProgram_eq_some_iff_of_one_token hx
  · intro cb x hx
    fin_cases hx <;> rfl

/-! ## The text of an image (rule R97) -/

theorem toNat_ofNat_digit {d : Nat} (hd : d < 10) : (Char.ofNat (48 + d)).toNat = 48 + d := by
  decide +revert

theorem naturalText_digits (n : Nat) : ∀ c ∈ naturalText n, IsDigitChar c := by
  intro c hc
  rw [naturalText] at hc
  split at hc
  case isTrue =>
    obtain rfl := List.mem_singleton.mp hc
    exact ⟨by decide, by decide⟩
  case isFalse =>
    obtain ⟨d, hd, rfl⟩ := List.mem_map.mp hc
    have hlt := decimalDigits_lt (List.mem_reverse.mp hd)
    rw [IsDigitChar, toNat_ofNat_digit hlt]
    omega

theorem naturalText_ne_nil (n : Nat) : naturalText n ≠ [] := by
  rw [naturalText]
  split
  case isTrue => nofun
  case isFalse hn => simpa [List.length_pos_iff] using decimalDigits_length_pos hn

/-- Digits written the most significant first, as the decoder lists them the least significant first. -/
theorem digitsTextValue_reverse_map {ds : List Nat} (h : ∀ d ∈ ds, d < 10) :
    digitsTextValue (ds.reverse.map fun d => Char.ofNat (48 + d)) = digitsValue ds := by
  induction ds with
  | nil => rfl
  | cons d ds ih =>
    obtain ⟨hd, hds⟩ := List.forall_mem_cons.mp h
    specialize ih hds
    unfold digitsTextValue at ih ⊢
    rw [List.reverse_cons, List.map_append, List.foldl_append, ih, digitsValue]
    simp only [List.map_cons, List.map_nil, List.foldl_cons, List.foldl_nil, toNat_ofNat_digit hd]
    omega

theorem digitsTextValue_naturalText (n : Nat) : digitsTextValue (naturalText n) = n := by
  rw [naturalText]
  split
  case isTrue hn => rw [hn]; rfl
  case isFalse => rw [digitsTextValue_reverse_map fun d => decimalDigits_lt, digitsValue_decimalDigits]

theorem numeralIs_integerText (v : Int) : NumeralIs (integerText v) v := by
  refine ⟨naturalText v.natAbs, decide (v < 0), naturalText_ne_nil _, naturalText_digits _, ?_, ?_⟩
  · rw [integerText]
    by_cases hv : v < 0 <;> simp [hv]
  · rw [digitsTextValue_naturalText]
    simp only [decide_eq_true_eq]
    split <;> omega

theorem parseProgram_integerText {cb : CellBits} {v : Int} (hv : FitsCell cb v) :
    parseProgram cb (integerText v) = some [v] := by
  have h := numeralIs_integerText v
  have hchars : ∀ c ∈ integerText v, c ≠ ',' ∧ c ≠ '\n' ∧ c ≠ '\r' := by
    intro c hc
    have := h.chars c hc
    rw [IsDigitChar] at this
    refine ⟨?_, ?_, ?_⟩ <;> rintro rfl <;> exact absurd this (by decide)
  have htoken : TokenIs (integerText v) v := tokenIs_iff.mpr ⟨[], _, [], nofun, (List.append_nil _).symm, h⟩
  exact (parseProgram_eq_some_iff_of_one_token hchars).mpr ⟨v, htoken, hv, rfl⟩

/-- Settles O55, by induction over the image: the comma between two integers separates their texts. -/
theorem programTextParsesBack : Obligations.ProgramTextParsesBack := by
  intro cb image hne hfits
  induction image with
  | nil => exact absurd rfl hne
  | cons v vs ih =>
    obtain ⟨hv, hvs⟩ := List.forall_mem_cons.mp hfits
    cases vs with
    | nil => exact parseProgram_integerText hv
    | cons w ws =>
      rw [programText, parseProgram_append_comma, parseProgram_integerText hv, ih nofun hvs]
      rfl

end Sys2Proof.Machine
end

section
/-! PROOFS. The engine cycle: operand resolution, what each instruction commits and what it leaves, the Step with its
response, and runs. Settles O11, O12, O13, O30, O31, O32, O33, O34, O35, O41, O42, O43, O46 and O47. -/

namespace Sys2Proof.Machine

/-! ## Raw, Read and Dst (rules R117 to R119) -/

/-- Settles O11: Raw(N) is the read of the cell at `ip + N`. -/
theorem rawFetchesTheParameterCell : Obligations.RawFetchesTheParameterCell := fun _ _ =>
  ⟨fun h => rawParam_eq_error_iff.mpr ⟨rfl, h⟩, fun h => rawParam_eq_ok_iff.mpr (List.getElem?_eq_getElem h)⟩

/-- Settles O12: Read(N) answers a value or a fatal condition, and each exactly where the rule says so. -/
theorem readAppliesTheMode : Obligations.ReadAppliesTheMode := by
  refine fun i n s => ⟨fun v => paramReads_iff.mp, fun c => paramFaults_iff.mp, ?_⟩
  cases h : readParam i n s with
  | ok v => exact .inl ⟨v, paramReads_iff.mpr h⟩
  | error c => exact .inr ⟨c, paramFaults_iff.mpr h⟩

/-- Settles O13: Dst(N) answers an address, which is a natural number, or a fatal condition, and each exactly where the
rule says so. -/
theorem destinationIsTheOperand : Obligations.DestinationIsTheOperand := by
  refine fun n s => ⟨fun d => destinationIs_iff.mp, fun c => destinationFaults_iff.mp, ?_⟩
  cases h : dstParam n s with
  | ok d =>
    obtain ⟨k, rfl, -⟩ := dstParam_ok_nat h
    exact .inl ⟨k, destinationIs_iff.mpr h⟩
  | error c => exact .inr ⟨c, destinationFaults_iff.mpr h⟩

/-! ## What OUT, JT and JF commit (rules R151, R160 to R163)

The storing instructions have `effect_eq_ok_iff_stores`. -/

/-- OUT that completes has appended the value of parameter 1 and advanced. -/
theorem effect_out_eq_ok_iff {modes : ModeDigits} {s t : State} :
    effect (.out modes) s = .ok t ↔ ∃ v, ParamReads (.out modes) s 1 v ∧ t = (s.appendOut v).advance 2 := by
  simp only [paramReads_iff]
  exact readAndAppend_eq_ok_iff

/-- A jump that completes has moved the pointer by its length, or to the value of parameter 2 where it was taken. -/
theorem jumpWhen_ok_jumpTo {i : Instr} {p : Int → Bool} {s t : State} (h : jumpWhen i p s = .ok t) :
    ∃ (a : Int) (target : Nat), t = s.jumpTo target ∧ ParamReads i s 1 a ∧
      ((p a = false ∧ target = s.ip + i.length) ∨ (p a = true ∧ ParamReads i s 2 (target : Int))) := by
  obtain ⟨a, ha, ⟨hp, rfl⟩ | ⟨hp, u, hu, hu0, rfl⟩⟩ := jumpWhen_eq_ok_iff.mp h
  · exact ⟨a, s.ip + i.length, rfl, paramReads_iff.mpr ha, .inl ⟨hp, rfl⟩⟩
  · rw [← Int.toNat_of_nonneg hu0] at hu
    exact ⟨a, u.toNat, rfl, paramReads_iff.mpr ha, .inr ⟨hp, paramReads_iff.mpr hu⟩⟩

/-! ## The frames of OUT, JT, JF and HALT (rule R122) -/

/-- Settles O30: OUT commits one append and an advance, or enters a fatal condition. -/
theorem frameOfOut : Obligations.FrameOfOut := by
  intro modes s t h
  obtain he | ⟨c, -, rfl⟩ := exec_eq_next_iff.mp h
  · obtain ⟨v, -, rfl⟩ := effect_out_eq_ok_iff.mp he
    exact ⟨fun _ => rfl, rfl, rfl, rfl, .inl ⟨⟨v, rfl⟩, rfl, rfl, rfl⟩⟩
  · exact ⟨fun _ => rfl, rfl, rfl, rfl, .inr ⟨c, raiseFatal_eq_faulted c s⟩⟩

theorem conclude_jumpWhen_frame {i : Instr} {p : Int → Bool} {s t : State}
    (h : conclude s (jumpWhen i p s) = .next t) :
    (∃ target, t = s.jumpTo target) ∨ ∃ c, t = raiseFatal c s := by
  obtain hj | ⟨c, -, rfl⟩ := conclude_eq_next_iff.mp h
  · obtain ⟨-, target, ht, -⟩ := jumpWhen_ok_jumpTo hj
    exact .inl ⟨target, ht⟩
  · exact .inr ⟨c, rfl⟩

/-- Settles O31: a jump moves the pointer, or enters a fatal condition; neither touches memory. -/
theorem frameOfJumps : Obligations.FrameOfJumps := by
  intro modes s t h
  obtain ⟨target, rfl⟩ | ⟨c, rfl⟩ := h.elim conclude_jumpWhen_frame conclude_jumpWhen_frame
  · exact ⟨fun _ => rfl, .inl ⟨target, rfl⟩⟩
  · exact ⟨fun _ => rfl, .inr ⟨c, raiseFatal_eq_faulted c s⟩⟩

/-- Settles O32: HALT always completes, and its one update is the write of `status`. -/
theorem frameOfHalt : Obligations.FrameOfHalt := by
  intro modes s t h
  obtain he | ⟨c, hc, -⟩ := exec_eq_next_iff.mp h
  · cases he
    exact ⟨fun _ => rfl, rfl, rfl, rfl, rfl, rfl, rfl, rfl⟩
  · cases hc

/-! ## How an instruction ends (rules R121 to R123, R180, R212) -/

/-- An instruction that completes leaves `status` as it is, but for HALT. -/
theorem effect_ok_status {i : Instr} {s t : State} (h : effect i s = .ok t) :
    ((∀ modes, i ≠ .halt modes) ∧ t.status = s.status) ∨ (∃ modes, i = .halt modes) ∧ t = s.stop := by
  cases i with
  | add _ | mul _ | lt _ | eq _ | inp _ =>
    obtain ⟨_, _, -, rfl⟩ := (effect_eq_ok_iff_stores rfl).mp h
    exact .inl ⟨nofun, rfl⟩
  | out _ =>
    obtain ⟨_, -, rfl⟩ := effect_out_eq_ok_iff.mp h
    exact .inl ⟨nofun, rfl⟩
  | jt _ | jf _ =>
    obtain ⟨-, _, rfl, -⟩ := jumpWhen_ok_jumpTo h
    exact .inl ⟨nofun, rfl⟩
  | halt modes =>
    cases h
    exact .inr ⟨⟨modes, rfl⟩, rfl⟩

theorem effect_ok_not_faulted {i : Instr} {s t : State} (hs : s.status = .running) (h : effect i s = .ok t) :
    t.status ≠ .faulted := by
  obtain ⟨-, hstatus⟩ | ⟨-, rfl⟩ := effect_ok_status h
  · simp [hstatus, hs]
  · simp

/-- An instruction of a running engine has entered a fatal condition exactly where `status` says so afterwards, and has
completed elsewhere. -/
theorem exec_faulted_or_completed {i : Instr} {s t : State} (hs : s.status = .running) (h : exec i s = .next t) :
    (t.status = .faulted → ∃ c, t = raiseFatal c s) ∧ (t.status ≠ .faulted → effect i s = .ok t) := by
  obtain he | ⟨c, -, rfl⟩ := exec_eq_next_iff.mp h
  · exact ⟨fun hf => absurd hf (effect_ok_not_faulted hs he), fun _ => he⟩
  · exact ⟨fun _ => ⟨c, rfl⟩, fun hf => absurd rfl hf⟩

/-- Settles O41: every update of the pointer is the advance by the length, but for a taken jump and HALT. -/
theorem pointerAfterAnInstruction : Obligations.PointerAfterAnInstruction := by
  intro i s t hs h
  obtain ⟨hfault, hdone⟩ := exec_faulted_or_completed hs h
  refine ⟨fun hf => ?_, fun hf => ?_⟩
  · obtain ⟨c, rfl⟩ := hfault hf
    rfl
  · have he := hdone hf
    cases i with
    | add _ | mul _ | lt _ | eq _ | inp _ =>
      obtain ⟨_, _, -, rfl⟩ := (effect_eq_ok_iff_stores rfl).mp he
      rfl
    | out _ =>
      obtain ⟨_, -, rfl⟩ := effect_out_eq_ok_iff.mp he
      rfl
    | jt _ | jf _ =>
      obtain ⟨a, target, rfl, ha, ⟨hp, htarget⟩ | ⟨hp, htarget⟩⟩ := jumpWhen_ok_jumpTo he
      · exact ⟨a, ha, .inl ⟨by simpa using hp, htarget⟩⟩
      · exact ⟨a, ha, .inr ⟨by simpa using hp, htarget⟩⟩
    | halt _ =>
      cases he
      rfl

/-- Settles O42: an instruction commits the one update of its rule, or the fault record. -/
theorem instructionCommitsOnce : Obligations.InstructionCommitsOnce := by
  intro i s t hs h
  obtain ⟨hfault, hdone⟩ := exec_faulted_or_completed hs h
  refine ⟨fun hf => ?_, fun hf => ?_⟩
  · obtain ⟨c, rfl⟩ := hfault hf
    exact raiseFatal_eq_faulted c s
  · have he := hdone hf
    cases i with
    | add _ | mul _ | lt _ | eq _ | inp _ =>
      obtain ⟨d, v, hst, rfl⟩ := (effect_eq_ok_iff_stores rfl).mp he
      exact ⟨d, v, hst, rfl⟩
    | out _ =>
      obtain ⟨v, hv, rfl⟩ := effect_out_eq_ok_iff.mp he
      exact ⟨v, hv, rfl⟩
    | jt _ | jf _ =>
      obtain ⟨-, target, rfl, -⟩ := jumpWhen_ok_jumpTo he
      rfl
    | halt _ =>
      cases he
      rfl

/-! ## The Step and its response (rules R110 to R116, R123) -/

/-- Settles O33: a Step is the fetch, the decode and the execution. -/
theorem stepRunsTheDecodedInstruction : Obligations.StepRunsTheDecodedInstruction := fun _ w _ hs hw hi =>
  step_of_fetchInstr_ok hs (fetchInstr_eq_ok_iff.mpr ⟨w, hw, hi⟩)

/-- Settles O34: fault entry is a next state, in a fetch and in an instruction. -/
theorem stepAlwaysAnswersNext : Obligations.StepAlwaysAnswersNext := ⟨step_answers_next, exec_answers_next⟩

theorem response_of_halted {s : State} (hs : s.status = .halted) : response s = .halted := by simp [response, hs]

theorem response_of_faulted {s : State} (hs : s.status = .faulted) : response s = .fault s.fcause s.finfo := by
  simp [response, hs]

theorem response_eq_halted_iff {s : State} : response s = .halted ↔ s.status = .halted := by
  unfold response
  cases s.status <;> simp

theorem response_eq_fault_iff {s : State} {c : Nat} {f : Int} :
    response s = .fault c f ↔ s.status = .faulted ∧ s.fcause = c ∧ s.finfo = f := by
  unfold response
  cases s.status <;> simp

/-- A halted or faulted engine answers a Step with the response of the state it stands in. -/
theorem stepRequest_of_ended {s : State} (hs : s.status ≠ .running) : stepRequest s = (response s, s) := by
  simp only [stepRequest, after_of_ended hs]

/-- Settles O35: in a state that has ended the Step leaves the state, and so repeats its response. -/
theorem endedStepDoesNothing : Obligations.EndedStepDoesNothing := by
  refine fun s => ⟨fun hs => ?_, fun hs => ?_⟩
  · have hended : s.status ≠ .running := by simp [hs]
    rw [stepRequest_of_ended hended, response_of_halted hs]
    exact ⟨step_eq_next_iff.mpr (after_of_ended hended), rfl⟩
  · have hended : s.status ≠ .running := by simp [hs]
    rw [stepRequest_of_ended hended, response_of_faulted hs]
    exact ⟨step_eq_next_iff.mpr (after_of_ended hended), rfl⟩

/-- A Step of a running engine ends in one of three ways, and the `status` it leaves tells which. -/
theorem after_cases_of_running {s : State} (hs : s.status = .running) :
    (∃ i, fetchInstr s = .ok i ∧ (∀ modes, i ≠ .halt modes) ∧ s.after.status = .running) ∨
    (∃ modes, fetchInstr s = .ok (.halt modes) ∧ s.after = s.stop) ∨
    ∃ c, s.after = raiseFatal c s := by
  obtain ⟨hne, -⟩ | ⟨-, c, -, h⟩ | ⟨-, i, hf, he | ⟨c, -, h⟩⟩ := after_cases s
  · exact absurd hs hne
  · exact .inr (.inr ⟨c, h⟩)
  · obtain ⟨hne, hstatus⟩ | ⟨⟨modes, rfl⟩, hstop⟩ := effect_ok_status he
    · exact .inl ⟨i, hf, hne, hstatus.trans hs⟩
    · exact .inr (.inl ⟨modes, hf, hstop⟩)
  · exact .inr (.inr ⟨c, h⟩)

/-- A running engine is halted by a Step exactly where it fetches HALT (rules R123, R180). -/
theorem after_halted_iff {s : State} (hs : s.status = .running) :
    s.after.status = .halted ↔ ∃ modes, fetchInstr s = .ok (.halt modes) := by
  constructor
  · intro h
    obtain ⟨-, -, -, hrun⟩ | ⟨modes, hf, -⟩ | ⟨c, hc⟩ := after_cases_of_running hs
    · cases hrun.symm.trans h
    · exact ⟨modes, hf⟩
    · simp [hc] at h
  · rintro ⟨modes, hf⟩
    rw [after_of_effect_ok hs hf rfl, State.stop_status]

/-- A Step of a running engine that leaves it faulted has entered a fatal condition (rule R212). -/
theorem after_faulted_iff {s : State} (hs : s.status = .running) {c : Nat} {f : Int} :
    s.after.status = .faulted ∧ s.after.fcause = c ∧ s.after.finfo = f ↔ s.after = Faulted s c f := by
  constructor
  · rintro ⟨h, rfl, rfl⟩
    obtain ⟨-, -, -, hrun⟩ | ⟨-, -, hstop⟩ | ⟨c, hc⟩ := after_cases_of_running hs
    · cases hrun.symm.trans h
    · simp [hstop] at h
    · rw [hc]; exact raiseFatal_eq_faulted c s
  · intro h
    rw [h]; exact ⟨rfl, rfl, rfl⟩

/-- A Step of a running engine that leaves it running has executed an instruction other than HALT. -/
theorem fetchInstr_of_after_running {s : State} (hs : s.status = .running) (h : s.after.status = .running) :
    ∃ i, fetchInstr s = .ok i ∧ ∀ modes, i ≠ .halt modes := by
  obtain ⟨i, hf, hne, -⟩ | ⟨-, -, hstop⟩ | ⟨c, hc⟩ := after_cases_of_running hs
  · exact ⟨i, hf, hne⟩
  · simp [hstop] at h
  · simp [hc] at h

/-- Settles O43: the response is read from the `status` that the Step left, which tells how it ended. -/
theorem responseSaysWhatTheStepDid : Obligations.ResponseSaysWhatTheStepDid := by
  refine fun s => ⟨fun hs => ?_, fun hs => ?_, fun hs => ⟨?_, fun c f => ?_, fun h => ?_⟩⟩
  · rw [stepRequest_of_ended (by simp [hs]), response_of_halted hs]
  · rw [stepRequest_of_ended (by simp [hs]), response_of_faulted hs]
  · rw [stepRequest, response_eq_halted_iff, after_halted_iff hs]
    simp only [fetchInstr_eq_ok_iff]
    exact exists_comm
  · rw [stepRequest, response_eq_fault_iff, after_faulted_iff hs, step_eq_next_iff]
  · obtain ⟨i, hf, hne⟩ := fetchInstr_of_after_running hs (response_eq_continues_iff.mp h)
    obtain ⟨w, hw, hi⟩ := fetchInstr_eq_ok_iff.mp hf
    exact ⟨w, i, hw, hi, hne, step_of_fetchInstr_ok hs hf⟩

/-! ## Runs (rules R124, R129, R255) -/

/-- Run is the Step repeated: the Steps it leaves out, after the end, would change nothing. -/
theorem runFuel_eq_iterate (k : Nat) (s : State) : runFuel k s = State.after^[k] s := by
  induction k generalizing s with
  | zero => rfl
  | succ k ih =>
    rw [runFuel_succ, Function.iterate_succ_apply]
    split
    · exact ih s.after
    · next hended => exact (Function.iterate_fixed (after_of_ended hended) k).symm

/-- Settles O46: iterates compose, and an ended state is a fixed point of the Step. -/
theorem runIsRepeatedStep : Obligations.RunIsRepeatedStep := by
  refine ⟨fun j k s => ?_, fun s t h => ?_, fun k s hs => ?_⟩
  · rw [Nat.add_comm]
    simp only [runFuel_eq_iterate, Function.iterate_add_apply]
  · rw [runFuel_eq_iterate]
    exact step_eq_next_iff.mp h
  · have hended : s.status ≠ .running := by simpa [State.ended] using hs
    rw [runFuel_eq_iterate]
    exact Function.iterate_fixed (after_of_ended hended) k

/-- A halted engine stands at a word of opcode 99. -/
def StandsAtHaltWhenHalted (s : State) : Prop :=
  s.status = .halted → ∃ w : Nat, s.mem[s.ip]? = some (w : Int) ∧ w % 100 = 99

/-- HALT keeps the pointer and memory, so the engine stands at the word it decoded (rule R180). -/
theorem after_standsAtHaltWhenHalted {s : State} (ih : StandsAtHaltWhenHalted s) :
    StandsAtHaltWhenHalted s.after := by
  intro h
  by_cases hs : s.status = .running
  case neg =>
    rw [after_of_ended hs] at h ⊢
    exact ih h
  obtain ⟨modes, hf⟩ := (after_halted_iff hs).mp h
  rw [after_of_effect_ok hs hf rfl, State.stop_mem, State.stop_ip]
  obtain ⟨w, hw, hi⟩ := fetchInstr_eq_ok_iff.mp hf
  obtain ⟨hw0, hop, -⟩ := decode_eq_ok_iff.mp hi
  exact ⟨w.toNat, by rwa [Int.toNat_of_nonneg hw0], hop.symm⟩

/-- Settles O47, by induction over the run. -/
theorem haltedRunStandsAtAHaltWord : Obligations.HaltedRunStandsAtAHaltWord := fun k s hs =>
  runFuel_induction (P := StandsAtHaltWhenHalted) (fun _ => after_standsAtHaltWhenHalted) k s
    fun h => by cases hs.symm.trans h

end Sys2Proof.Machine
end

section
/-! PROOFS. Arithmetic: how a storing instruction answers, and the exact results of ADD and MUL. Settles O15, O16 and
O24. -/

namespace Sys2Proof.Machine

/-! ## How a storing instruction answers (rules R120, R211, R212) -/

/-- An instruction that meets a fatal condition enters it. -/
theorem exec_of_effect_error {i : Instr} {s : State} {c : FatalCondition} (h : effect i s = .error c) :
    exec i s = .next (Faulted s c.code c.info) :=
  exec_eq_next_iff.mpr (.inr ⟨c, h, (raiseFatal_eq_faulted c s).symm⟩)

/-- A storing instruction whose rule gives a store commits it. -/
theorem exec_of_stores {i : Instr} {s : State} {d : Nat} {v : Int} (h : Stores i s d v) :
    exec i s = .next (s.commitStore i d v) := by
  obtain ⟨n, hn, -⟩ := h.destinationIs
  exact exec_eq_next_iff.mpr (.inl ((effect_eq_ok_iff_stores hn).mpr ⟨d, v, h, rfl⟩))

theorem computeAndStore_of_fourCellFaults {i : Instr} {f : Int → Int → Except FatalCondition Int} {s : State}
    {c : FatalCondition} (h : FourCellFaults i s c) : computeAndStore i f s = .error c := by
  rw [computeAndStore_eq_error_iff]
  obtain h1 | ⟨a, ha, h2 | ⟨b, hb, h3⟩⟩ := h
  · exact .inl (paramFaults_iff.mp h1)
  · exact .inr ⟨a, paramReads_iff.mp ha, .inl (paramFaults_iff.mp h2)⟩
  · exact .inr ⟨a, paramReads_iff.mp ha, .inr ⟨b, paramReads_iff.mp hb, .inl (destinationFaults_iff.mp h3)⟩⟩

/-- The instructions whose destination is parameter 3 are the four-cell ones: ADD, MUL, LT and EQ. -/
theorem exec_of_fourCellFaults {i : Instr} {s : State} {c : FatalCondition} (hi : i.destination = some 3)
    (h : FourCellFaults i s c) : exec i s = .next (Faulted s c.code c.info) := by
  refine exec_of_effect_error ?_
  cases i with
  | add _ | mul _ | lt _ | eq _ =>
    unfold effect
    exact computeAndStore_of_fourCellFaults h
  | inp _ | out _ | jt _ | jf _ | halt _ => cases hi

theorem computeAndStore_of_result_error {i : Instr} {f : Int → Int → Except FatalCondition Int} {s : State} {a b : Int}
    {d : Nat} {c : FatalCondition} (h : FourCellOperands i s a b d) (hf : f a b = .error c) :
    computeAndStore i f s = .error c := by
  obtain ⟨ha, hb, hd⟩ := h
  exact computeAndStore_eq_error_iff.mpr
    (.inr ⟨a, paramReads_iff.mp ha, .inr ⟨b, paramReads_iff.mp hb, .inr ⟨d, destinationIs_iff.mp hd, hf⟩⟩⟩)

theorem narrow_of_not_fitsCell {cb : CellBits} {r : Int} (h : ¬FitsCell cb r) :
    narrow cb r = .error .arithmeticOverflow :=
  narrow_eq_error_iff.mpr ⟨rfl, Bool.eq_false_iff.mpr fun hin => h (fitsCell_iff_inRange.mpr hin)⟩

/-! ## The exact results of ADD and MUL (rules R140 to R142)

Both are one instruction with two results, so what they do is shown once. -/

/-- `i` is ADD or MUL and `r` is its exact result on the operands `a` and `b`. -/
def ExactResult (i : Instr) (a b r : Int) : Prop :=
  (∃ modes, i = .add modes ∧ r = a + b) ∨ ∃ modes, i = .mul modes ∧ r = a * b

section
variable {i : Instr} {s : State} {a b r : Int} {d : Nat}

/-- A result that fits a cell is stored as it is. -/
theorem exec_of_exactResult_fits (hr : ExactResult i a b r) (h : FourCellOperands i s a b d)
    (hfit : FitsCell s.cellBits r) : exec i s = .next { s with mem := s.mem.set d r, ip := s.ip + 4 } := by
  obtain ⟨modes, rfl, rfl⟩ | ⟨modes, rfl, rfl⟩ := hr
  · exact exec_of_stores (i := .add modes) ⟨a, b, h, rfl, hfit⟩
  · exact exec_of_stores (i := .mul modes) ⟨a, b, h, rfl, hfit⟩

/-- A result that fits no cell is never stored. -/
theorem exec_of_exactResult_overflows (hr : ExactResult i a b r) (h : FourCellOperands i s a b d)
    (hfit : ¬FitsCell s.cellBits r) : exec i s = .next (Faulted s 9 0) := by
  refine exec_of_effect_error (c := .arithmeticOverflow) ?_
  obtain ⟨modes, rfl, rfl⟩ | ⟨modes, rfl, rfl⟩ := hr
  · exact computeAndStore_of_result_error h (narrow_of_not_fitsCell hfit)
  · exact computeAndStore_of_result_error h (narrow_of_not_fitsCell hfit)

/-- Memory changes in one way only: the destination comes to hold the exact result, which fits. -/
theorem exec_exactResult_of_mem_ne {t : State} (hr : ExactResult i a b r) (h : FourCellOperands i s a b d)
    (ht : exec i s = .next t) (hne : t.mem ≠ s.mem) : t.mem[d]? = some r ∧ FitsCell s.cellBits r := by
  by_cases hfit : FitsCell s.cellBits r
  · rw [exec_of_exactResult_fits hr h hfit] at ht
    cases ht
    obtain ⟨-, -, -, hd⟩ := h
    exact ⟨List.getElem?_set_self hd, hfit⟩
  · rw [exec_of_exactResult_overflows hr h hfit] at ht
    cases ht
    exact absurd rfl hne

end

/-- Settles O15: ADD stores its exact sum, or meets the first fatal condition in the order of rule R120. -/
theorem addStoresTheExactSum : Obligations.AddStoresTheExactSum := by
  refine ⟨fun modes s => ?_, rfl⟩
  obtain ⟨hopcode, -⟩ := Laws.OpcodeDigits.add modes
  exact ⟨fun _ _ _ => exec_of_exactResult_fits (.inl ⟨modes, rfl, rfl⟩),
    fun _ _ _ => exec_of_exactResult_overflows (.inl ⟨modes, rfl, rfl⟩), fun _ => exec_of_fourCellFaults rfl, hopcode⟩

/-- Settles O16: MUL stores its exact product, or meets the first fatal condition in the order of rule R120. -/
theorem mulStoresTheExactProduct : Obligations.MulStoresTheExactProduct := by
  refine ⟨fun modes s => ?_, rfl⟩
  obtain ⟨hopcode, -⟩ := Laws.OpcodeDigits.mul modes
  exact ⟨fun _ _ _ => exec_of_exactResult_fits (.inr ⟨modes, rfl, rfl⟩),
    fun _ _ _ => exec_of_exactResult_overflows (.inr ⟨modes, rfl, rfl⟩), fun _ => exec_of_fourCellFaults rfl, hopcode⟩

/-- Settles O24: the exact result is stored where it fits, as any integer does an unbounded cell, and nothing is stored
where it does not. -/
theorem arithmeticNeverWraps : Obligations.ArithmeticNeverWraps := by
  intro modes s i a b r d hi h
  have hr : ExactResult i a b r := hi.imp (⟨modes, ·⟩) (⟨modes, ·⟩)
  refine ⟨exec_of_exactResult_overflows hr h, fun hinf => exec_of_exactResult_fits hr h ?_,
    fun _ => exec_exactResult_of_mem_ne hr h⟩
  rw [hinf]
  trivial

end Sys2Proof.Machine
end

section
/-! PROOFS. Input and output: the input pull, and what IN and OUT commit or raise. Settles O14, O17 and O18. -/

namespace Sys2Proof.Machine

/-! ## The input pull (rules R28, R152) -/

theorem inNext_of_valueAt {s : State} {v : Int} (h : s.input.valueAt s.cellBits s.cur = some v) :
    inNext s = .ok (v, { s with cur := s.cur + 1 }) := inNext_eq_ok_iff.mpr ⟨h, rfl⟩

theorem valueAt_values (cb : CellBits) (vs : List Int) (k : Nat) : (Input.values vs).valueAt cb k = vs[k]? := rfl

theorem valueAt_source (cb : CellBits) (n k : Nat) :
    (Input.source n).valueAt cb k = some (sourceValue cb n k) := rfl

/-- Settles O14: the pull looks at `INPUT[cur]` alone, which a finite input has below its length and a source always. -/
theorem inputPullTakesTheNextValue : Obligations.InputPullTakesTheNextValue := by
  refine fun s => ⟨fun vs v hs hv => ?_, fun vs hs hlen => ?_, fun n hs => ?_⟩
  · apply inNext_of_valueAt
    rw [hs, valueAt_values, hv]
  · refine inNext_eq_error_iff.mpr ⟨?_, rfl⟩
    rw [hs, valueAt_values, List.getElem?_eq_none hlen]
  · have hv : s.input.valueAt s.cellBits s.cur = some (sourceValue s.cellBits n s.cur) := by
      rw [hs, valueAt_source]
    exact ⟨hv, inNext_of_valueAt hv⟩

/-! ## What IN raises (rules R120, R150)

What it stores is `exec_of_stores`. -/

section
variable {modes : ModeDigits} {s : State}

/-- The destination is checked before the input is pulled. -/
theorem exec_inp_of_destinationFaults {c : FatalCondition} (h : DestinationFaults s 1 c) :
    exec (.inp modes) s = .next (Faulted s c.code c.info) :=
  exec_of_effect_error (pullAndStore_eq_error_iff.mpr (.inl (destinationFaults_iff.mp h)))

theorem exec_inp_of_exhausted {d : Nat} (hd : DestinationIs s 1 d)
    (hv : s.input.valueAt s.cellBits s.cur = none) : exec (.inp modes) s = .next (Faulted s 6 0) :=
  exec_of_effect_error (c := .inputExhaustion)
    (pullAndStore_eq_error_iff.mpr (.inr ⟨d, destinationIs_iff.mp hd, hv, rfl⟩))

/-! ## What OUT appends and raises (rule R151) -/

theorem exec_out_of_paramReads {a : Int} (h : ParamReads (.out modes) s 1 a) :
    exec (.out modes) s = .next { s with out := s.out ++ [a], ip := s.ip + 2 } :=
  exec_eq_next_iff.mpr (.inl (effect_out_eq_ok_iff.mpr ⟨a, h, rfl⟩))

theorem exec_out_of_paramFaults {c : FatalCondition} (h : ParamFaults (.out modes) s 1 c) :
    exec (.out modes) s = .next (Faulted s c.code c.info) :=
  exec_of_effect_error (readAndAppend_eq_error_iff.mpr (paramFaults_iff.mp h))

end

/-- Settles O17: IN commits the store its rule gives, or enters the fatal condition of its destination, or else of the
input pull. -/
theorem inStoresTheNextInput : Obligations.InStoresTheNextInput := by
  intro modes s
  obtain ⟨hopcode, -⟩ := Laws.OpcodeDigits.inp modes
  exact ⟨fun _ _ hd hv => exec_of_stores (i := .inp modes) ⟨hd, hv⟩, fun _ => exec_inp_of_exhausted,
    fun _ => exec_inp_of_destinationFaults, hopcode⟩

/-- Settles O18: OUT appends what its one read delivers, or enters the fatal condition of that read. -/
theorem outAppendsTheOperand : Obligations.OutAppendsTheOperand := by
  intro modes s
  obtain ⟨hopcode, -⟩ := Laws.OpcodeDigits.out modes
  exact ⟨fun _ => exec_out_of_paramReads, fun _ => exec_out_of_paramFaults, hopcode⟩

end Sys2Proof.Machine
end

section
/-! PROOFS. Jumps: when JT and JF jump, where to, and what they raise. Settles O19, O20, O25 and O26. -/

namespace Sys2Proof.Machine

/-! ## The two jumps (rules R160 to R163)

JT and JF are one jump with two conditions, so each path is shown once. -/

/-- `i` is JT or JF, and the condition `a` takes the jump. -/
def TakesJump (modes : ModeDigits) (i : Instr) (a : Int) : Prop :=
  (i = .jt modes ∧ a ≠ 0) ∨ (i = .jf modes ∧ a = 0)

/-- `i` is JT or JF, and the condition `a` does not take the jump. -/
def FallsThrough (modes : ModeDigits) (i : Instr) (a : Int) : Prop :=
  (i = .jt modes ∧ a = 0) ∨ (i = .jf modes ∧ a ≠ 0)

section
variable {modes : ModeDigits} {i : Instr} {s : State} {a : Int} {c : FatalCondition}

theorem TakesJump.readsSecond (h : TakesJump modes i a) : i.ReadsSecond a := by
  obtain ⟨rfl, ha⟩ | ⟨rfl, ha⟩ := h
  · exact ha
  · exact ha

theorem TakesJump.effect_eq_jumpWhen (h : TakesJump modes i a) (s : State) :
    ∃ taken : Int → Bool, taken a = true ∧ effect i s = jumpWhen i taken s := by
  obtain ⟨rfl, ha⟩ | ⟨rfl, ha⟩ := h
  · exact ⟨_, decide_eq_true ha, rfl⟩
  · exact ⟨_, decide_eq_true ha, rfl⟩

theorem FallsThrough.effect_eq_jumpWhen (h : FallsThrough modes i a) (s : State) :
    i.length = 3 ∧ ∃ taken : Int → Bool, taken a = false ∧ effect i s = jumpWhen i taken s := by
  obtain ⟨rfl, ha⟩ | ⟨rfl, ha⟩ := h
  · exact ⟨rfl, _, decide_eq_false (not_not_intro ha), rfl⟩
  · exact ⟨rfl, _, decide_eq_false ha, rfl⟩

theorem exec_of_takesJump {t : Nat} (h : TakesJump modes i a) (ha : ParamReads i s 1 a)
    (ht : ParamReads i s 2 (t : Int)) : exec i s = .next { s with ip := t } := by
  obtain ⟨taken, htaken, he⟩ := h.effect_eq_jumpWhen s
  refine exec_eq_next_iff.mpr (.inl (he.trans (jumpWhen_eq_ok_iff.mpr ⟨a, paramReads_iff.mp ha, .inr ?_⟩)))
  exact ⟨htaken, t, paramReads_iff.mp ht, Int.natCast_nonneg t, rfl⟩

theorem exec_of_takesJump_negative {t : Int} (h : TakesJump modes i a) (ha : ParamReads i s 1 a)
    (ht : ParamReads i s 2 t) (hneg : t < 0) : exec i s = .next (Faulted s 5 t) := by
  obtain ⟨taken, htaken, he⟩ := h.effect_eq_jumpWhen s
  refine exec_of_effect_error (c := .negativeJumpTarget t) (he.trans (jumpWhen_eq_error_iff.mpr (.inr ?_)))
  exact ⟨a, paramReads_iff.mp ha, htaken, .inr ⟨t, paramReads_iff.mp ht, hneg, rfl⟩⟩

theorem exec_of_takesJump_paramFaults (h : TakesJump modes i a) (ha : ParamReads i s 1 a)
    (hc : ParamFaults i s 2 c) : exec i s = .next (Faulted s c.code c.info) :=
  exec_of_effect_error (effect_error_of_readParam_two h.readsSecond (paramReads_iff.mp ha) (paramFaults_iff.mp hc))

/-- The jump not taken asks nothing of parameter 2 (rule R163). -/
theorem exec_of_fallsThrough (h : FallsThrough modes i a) (ha : ParamReads i s 1 a) :
    exec i s = .next { s with ip := s.ip + 3 } := by
  obtain ⟨hlen, taken, htaken, he⟩ := h.effect_eq_jumpWhen s
  refine exec_eq_next_iff.mpr (.inl (he.trans (jumpWhen_eq_ok_iff.mpr ⟨a, paramReads_iff.mp ha, .inl ⟨htaken, ?_⟩⟩)))
  rw [hlen]
  rfl

theorem exec_of_paramFaults_one (hi : i.ReadsFirst) (hc : ParamFaults i s 1 c) :
    exec i s = .next (Faulted s c.code c.info) :=
  exec_of_effect_error (effect_error_of_readParam_one hi (paramFaults_iff.mp hc))

end

/-- Settles O19: JT jumps where parameter 1 is not 0, falls through where it is, and raises the first fatal condition it
meets on its path. -/
theorem jtJumpsOnNonZero : Obligations.JtJumpsOnNonZero := by
  intro modes s
  obtain ⟨hopcode, -⟩ := Laws.OpcodeDigits.jt modes
  have htakes {a : Int} (ha : a ≠ 0) : TakesJump modes (.jt modes) a := .inl ⟨rfl, ha⟩
  exact ⟨fun _ _ h1 ha => exec_of_takesJump (htakes ha) h1,
    exec_of_fallsThrough (.inl ⟨rfl, rfl⟩),
    fun _ => exec_of_paramFaults_one (i := .jt modes) trivial,
    fun _ _ h1 ha => exec_of_takesJump_paramFaults (htakes ha) h1,
    fun _ _ h1 ha => exec_of_takesJump_negative (htakes ha) h1,
    hopcode⟩

/-- Settles O20: JF jumps where parameter 1 is 0, falls through where it is not, and raises the first fatal condition it
meets on its path. -/
theorem jfJumpsOnZero : Obligations.JfJumpsOnZero := by
  intro modes s
  obtain ⟨hopcode, -⟩ := Laws.OpcodeDigits.jf modes
  have htakes : TakesJump modes (.jf modes) 0 := .inr ⟨rfl, rfl⟩
  exact ⟨fun _ => exec_of_takesJump htakes,
    fun _ h1 ha => exec_of_fallsThrough (.inr ⟨rfl, ha⟩) h1,
    fun _ => exec_of_paramFaults_one (i := .jf modes) trivial,
    fun _ => exec_of_takesJump_paramFaults htakes,
    fun _ => exec_of_takesJump_negative htakes,
    hopcode⟩

/-! ## The target at the next fetch (rules R113, R162) -/

theorem step_of_pointer_outside {s : State} (hs : s.status = .running) (hip : s.mem.length ≤ s.ip) :
    step s = .next (Faulted s 2 (s.ip : Int)) :=
  step_eq_next_iff.mpr (after_of_fetch_error hs (fetchInstr_eq_error_iff.mpr (.inl ⟨hip, rfl⟩)))

/-- Settles O25: the jump checks the sign of its target alone; where the target lies, the next Step's fetch finds. -/
theorem jumpTargetIsCheckedAtTheFetch : Obligations.JumpTargetIsCheckedAtTheFetch := by
  intro modes s i a t hi ha ht
  refine ⟨exec_of_takesJump_negative hi ha ht, ?_⟩
  rintro n rfl
  refine ⟨exec_of_takesJump hi ha ht, fun hs => ⟨response_eq_continues_iff.mpr hs, fun hn => ?_, fun w j hw hj => ?_⟩⟩
  · exact step_of_pointer_outside (s := { s with ip := n }) hs hn
  · exact stepRunsTheDecodedInstruction { s with ip := n } w j hs hw hj

/-- Settles O26: the jump that falls through reads parameter 1 alone; the two images are run. -/
theorem untakenJumpIgnoresItsTarget : Obligations.UntakenJumpIgnoresItsTarget :=
  ⟨fun _ _ _ _ => exec_of_fallsThrough, rfl, rfl, rfl⟩

end Sys2Proof.Machine
end

section
/-! PROOFS. Comparisons: what LT and EQ store, and what they raise. Settles O21 and O22. -/

namespace Sys2Proof.Machine

/-! ## The two comparisons (rules R170, R171)

`Stores` gives the value on each side of the comparison, always 1 or 0, so there is no overflow to raise: the fatal
conditions are those of the parameters, `exec_of_fourCellFaults`. -/

/-- Settles O21: LT commits the store of 1 below its second operand and of 0 from there on, or enters the first fatal
condition met in the order of rule R120. -/
theorem ltStoresOneOrZero : Obligations.LtStoresOneOrZero := by
  intro modes s
  obtain ⟨hopcode, -⟩ := Laws.OpcodeDigits.lt modes
  refine ⟨fun a b d h hlt => ?less, fun a b d h hle => ?notLess, fun _ => exec_of_fourCellFaults rfl, hopcode⟩
  case less => exact exec_of_stores (i := .lt modes) ⟨a, b, h, .inl ⟨hlt, rfl⟩⟩
  case notLess => exact exec_of_stores (i := .lt modes) ⟨a, b, h, .inr ⟨hle, rfl⟩⟩

/-- Settles O22: EQ commits the store of 1 where its operands are the same value and of 0 elsewhere, or enters the first
fatal condition met in the order of rule R120. -/
theorem eqStoresOneOrZero : Obligations.EqStoresOneOrZero := by
  intro modes s
  obtain ⟨hopcode, -⟩ := Laws.OpcodeDigits.eq modes
  refine ⟨fun a d h => ?equal, fun a b d h hne => ?different, fun _ => exec_of_fourCellFaults rfl, hopcode⟩
  case equal => exact exec_of_stores (i := .eq modes) ⟨a, a, h, .inl ⟨rfl, rfl⟩⟩
  case different => exact exec_of_stores (i := .eq modes) ⟨a, b, h, .inr ⟨hne, rfl⟩⟩

end Sys2Proof.Machine
end

section
/-! PROOFS. HALT: the Step that executes it, and the Steps after it. Settles O23. -/

namespace Sys2Proof.Machine

/-! ## HALT (rule R180) -/

theorem exec_halt (modes : ModeDigits) (s : State) : exec (.halt modes) s = .next s.stop :=
  exec_eq_next_iff.mpr (.inl rfl)

/-- The Step that fetches HALT commits the write of `status` alone, and answers from what it wrote. -/
theorem stepRequest_of_fetchInstr_halt {s : State} {modes : ModeDigits} (hs : s.status = .running)
    (hf : fetchInstr s = .ok (.halt modes)) : stepRequest s = (.halted, s.stop) := by
  have hstop : s.after = s.stop := after_of_effect_ok hs hf rfl
  rw [stepRequest, hstop, response_of_halted s.stop_status]

/-- Settles O23: HALT has no parameter to fault on, so it always commits `State.stop`, in which the engine has ended. -/
theorem haltStopsTheEngine : Obligations.HaltStopsTheEngine := by
  intro modes s
  obtain ⟨hopcode, -⟩ := Laws.OpcodeDigits.halt modes
  refine ⟨exec_halt modes s, hopcode, fun w hs hw hi => ?halting, ?halted⟩
  case halting => exact stepRequest_of_fetchInstr_halt hs (fetchInstr_eq_ok_iff.mpr ⟨w, hw, hi⟩)
  case halted =>
    obtain ⟨hhalted, -⟩ := endedStepDoesNothing s.stop
    obtain ⟨-, hrequest⟩ := hhalted s.stop_status
    exact hrequest

end Sys2Proof.Machine
end

section
/-! PROOFS. Fatal conditions: fault entry, the fatal conditions of the fetch, and which instruction can raise which.
Settles O36, O37, O40 and O44. -/

namespace Sys2Proof.Machine

/-! ## Fault entry (rules R123, R212) -/

theorem response_raiseFatal (c : FatalCondition) (s : State) : response (raiseFatal c s) = .fault c.code c.info :=
  response_of_faulted (raiseFatal_status c s)

theorem stepRequest_of_after_raiseFatal {s : State} {c : FatalCondition} (h : s.after = raiseFatal c s) :
    stepRequest s = (.fault c.code c.info, raiseFatal c s) := by
  rw [stepRequest, h, response_raiseFatal]

/-- A Step that leaves a running engine faulted has entered a fatal condition other than Load's: a completed instruction
leaves no fault. -/
theorem after_raises_of_faulted {s : State} (hs : s.status = .running) (hf : s.after.status = .faulted) :
    ∃ c : FatalCondition, c ≠ .malformedProgram ∧ s.after = raiseFatal c s := by
  obtain ⟨hne, -⟩ | ⟨-, c, hc, h⟩ | ⟨-, i, -, he | ⟨c, hc, h⟩⟩ := after_cases s
  · exact absurd hs hne
  · exact ⟨c, fetchInstr_error_ne_malformed hc, h⟩
  · exact absurd hf (effect_ok_not_faulted hs he)
  · exact ⟨c, effect_error_ne_malformed hc, h⟩

/-- Settles O40: every fault of a Step is one fault entry, from the state before the Step. -/
theorem faultEntryWritesOnlyTheRecord : Obligations.FaultEntryWritesOnlyTheRecord := by
  refine ⟨fun s c => ⟨raiseFatal_eq_faulted c s, response_raiseFatal c s⟩, fun s t hs ht hf => ?_⟩
  obtain rfl := step_eq_next_iff.mp ht
  obtain ⟨c, hc, h⟩ := after_raises_of_faulted hs hf
  refine ⟨c, hc, h.trans (raiseFatal_eq_faulted c s), ?_⟩
  rw [stepRequest_of_after_raiseFatal h, h]

/-! ## The fetch (rules R202, R203) -/

/-- Settles O36: the fetch finds no cell at the pointer. -/
theorem pointerOutsideMemoryFaults : Obligations.PointerOutsideMemoryFaults := fun _ => step_of_pointer_outside

/-- Settles O37: the decode rejects a negative word for its sign, before it looks at any digit. -/
theorem negativeWordFaults : Obligations.NegativeWordFaults := fun _ _ hs hw hneg =>
  step_of_decode_error hs hw (decode_eq_error_iff.mpr (.inl ⟨hneg, rfl⟩))

/-! ## The codes each operation can raise (rule R210)

The templates of the instructions raise what their operations raise, so the table follows from one lemma for each
operation. -/

section
variable {i : Instr} {s : State} {c : FatalCondition}

theorem fetchInstr_error_code (h : fetchInstr s = .error c) : c.code = 2 ∨ c.code = 3 ∨ c.code = 4 := by
  obtain ⟨-, rfl⟩ | ⟨-, r, -, -, rfl⟩ := fetchInstr_eq_error_iff.mp h
  · exact .inl rfl
  · cases r with
    | negativeOperationCode _ => exact .inr (.inl rfl)
    | unknownOpcode _ => exact .inr (.inr rfl)

theorem readParam_error_code {n : Nat} (h : readParam i n s = .error c) : c.code = 7 ∨ c.code = 8 := by
  obtain ⟨-, rfl⟩ | ⟨-, -, ⟨-, rfl⟩ | ⟨-, -, rfl⟩⟩ := readParam_eq_error_iff.mp h
  · exact .inl rfl
  · exact .inr rfl
  · exact .inl rfl

theorem dstParam_error_code {n : Nat} (h : dstParam n s = .error c) : c.code = 7 := by
  obtain ⟨-, rfl⟩ | ⟨-, -, -, rfl⟩ := dstParam_eq_error_iff.mp h
  · rfl
  · rfl

theorem narrow_error_code {cb : CellBits} {r : Int} (h : narrow cb r = .error c) : c.code = 9 := by
  obtain ⟨rfl, -⟩ := narrow_eq_error_iff.mp h
  rfl

/-- A four-cell instruction raises for a parameter, or else for its result. -/
theorem computeAndStore_error_code {f : Int → Int → Except FatalCondition Int}
    (h : computeAndStore i f s = .error c) :
    c.code = 7 ∨ c.code = 8 ∨ ∃ a b, f a b = .error c := by
  rw [← or_assoc]
  obtain h1 | ⟨a, -, h2 | ⟨b, -, h3 | ⟨-, -, hr⟩⟩⟩ := computeAndStore_eq_error_iff.mp h
  · exact .inl (readParam_error_code h1)
  · exact .inl (readParam_error_code h2)
  · exact .inl (.inl (dstParam_error_code h3))
  · exact .inr ⟨a, b, hr⟩

theorem computeAndStore_narrow_error_code {op : Int → Int → Int}
    (h : computeAndStore i (fun a b => narrow s.cellBits (op a b)) s = .error c) :
    c.code = 7 ∨ c.code = 8 ∨ c.code = 9 :=
  (computeAndStore_error_code h).imp_right (.imp_right fun ⟨_, _, hr⟩ => narrow_error_code hr)

theorem computeAndStore_ok_error_code {g : Int → Int → Int}
    (h : computeAndStore i (fun a b => .ok (g a b)) s = .error c) : c.code = 7 ∨ c.code = 8 :=
  (computeAndStore_error_code h).imp_right fun hr => hr.resolve_right nofun

theorem pullAndStore_error_code (h : pullAndStore i s = .error c) : c.code = 7 ∨ c.code = 6 := by
  obtain hd | ⟨-, -, -, rfl⟩ := pullAndStore_eq_error_iff.mp h
  · exact .inl (dstParam_error_code hd)
  · exact .inr rfl

theorem readAndAppend_error_code (h : readAndAppend i s = .error c) : c.code = 7 ∨ c.code = 8 :=
  readParam_error_code (readAndAppend_eq_error_iff.mp h)

theorem jumpWhen_error_code {p : Int → Bool} (h : jumpWhen i p s = .error c) :
    c.code = 7 ∨ c.code = 8 ∨ c.code = 5 := by
  rw [← or_assoc]
  obtain h1 | ⟨-, -, -, h2 | ⟨-, -, -, rfl⟩⟩ := jumpWhen_eq_error_iff.mp h
  · exact .inl (readParam_error_code h1)
  · exact .inl (readParam_error_code h2)
  · exact .inr rfl

/-- An instruction that leaves a running engine faulted has entered the fatal condition its effect met. -/
theorem effect_error_of_exec_faulted {t : State} (hs : s.status = .running) (h : exec i s = .next t)
    (hf : t.status = .faulted) : ∃ c, effect i s = .error c ∧ t = raiseFatal c s :=
  (exec_eq_next_iff.mp h).resolve_left fun he => effect_ok_not_faulted hs he hf

/-- Without an instruction at the pointer, the Step of a running engine enters a fatal condition of the fetch. -/
theorem after_of_no_instruction (hs : s.status = .running)
    (h : ∀ w i, s.mem[s.ip]? = some w → decode w ≠ .ok i) :
    ∃ c, fetchInstr s = .error c ∧ s.after = raiseFatal c s := by
  cases hf : fetchInstr s with
  | ok i =>
    obtain ⟨w, hw, hi⟩ := fetchInstr_eq_ok_iff.mp hf
    exact absurd hi (h w i hw)
  | error c => exact ⟨c, rfl, after_of_fetch_error hs hf⟩

end

/-- Load raises for a program text that does not parse, and for nothing else (rules R201, R242). -/
theorem load_eq_fatal_iff {cb : CellBits} {text : List Char} {input : Input} {c : FatalCondition} :
    load cb text input = .error (.fatal c) ↔
      WidthAdmitted cb ∧ parseProgram cb text = none ∧ c = .malformedProgram := by
  unfold load
  by_cases hcb : WidthAdmitted cb
  case neg => simp [widthAdmitted_iff.not.mp hcb, hcb]
  rw [if_pos (widthAdmitted_iff.mp hcb)]
  cases parseProgram cb text with
  | none => simp [hcb, eq_comm]
  | some image => cases input.wf cb <;> simp

/-- Settles O44: the code recorded is that of the operation of the instruction, of the fetch or of Load that raised. -/
theorem faultCausesByInstruction : Obligations.FaultCausesByInstruction := by
  refine ⟨fun i s t hs h hf => ?instruction, fun s t hs hno h => ?fetch, fun cb text input c h => ?load⟩
  case instruction =>
    obtain ⟨c, he, rfl⟩ := effect_error_of_exec_faulted hs h hf
    cases i with
    | add _ | mul _ => exact computeAndStore_narrow_error_code he
    | lt _ | eq _ => exact computeAndStore_ok_error_code he
    | inp _ => exact pullAndStore_error_code he
    | out _ => exact readAndAppend_error_code he
    | jt _ | jf _ => exact jumpWhen_error_code he
    | halt _ => cases he
  case fetch =>
    obtain ⟨c, hc, hafter⟩ := after_of_no_instruction hs hno
    obtain rfl : raiseFatal c s = t := hafter.symm.trans (step_eq_next_iff.mp h)
    exact ⟨raiseFatal_status c s, fetchInstr_error_code hc⟩
  case load =>
    obtain ⟨-, -, rfl⟩ := load_eq_fatal_iff.mp h
    rfl

end Sys2Proof.Machine
end

section
/-! PROOFS. Reset, and the spec's derived examples run. Settles O28, O50 and O51. -/

namespace Sys2Proof.Machine

/-! ## Reset (rule R36) -/

/-- Settles O50, field by field: reset is the default width with no program and no input. -/
theorem resetRegisters : Obligations.ResetRegisters :=
  ⟨State.reset_ip, State.reset_out, State.reset_cur, State.reset_status, State.reset_fcause, State.reset_finfo,
    State.reset_mem, State.reset_input, State.reset_cellBits⟩

/-- Settles O51: the default width is admitted, and there is no cell and no input value to be out of range. -/
theorem invariantHoldsAtReset : Obligations.InvariantHoldsAtReset :=
  have hwidth : WidthAdmitted Config.defaultCellBits := widthAdmitted_iff.mpr rfl
  inv_ofImage hwidth nofun nofun

/-! ## The worked examples (rules R141, R150, R151, R160, R161, R170, R171, R180)

Some examples give one image for several pairs of operands, which the obligation lists: each pair is one run. -/

theorem forall_pair_mem_cons {α β : Type} {a : α} {b : β} {l : List (α × β)} {P : α → β → Prop} :
    (∀ x y, (x, y) ∈ (a, b) :: l → P x y) ↔ P a b ∧ ∀ x y, (x, y) ∈ l → P x y := by
  simpa only [Prod.forall] using List.forall_mem_cons (p := fun q : α × β => P q.1 q.2) (a := (a, b)) (l := l)

/-- Settles O28, by running every example. -/
theorem workedExamplesRun : Obligations.WorkedExamplesRun := by
  refine ⟨?mul, ?inOverItself, ?inOverHalt, ?outImmediate, ?outPosition, ?jumpTaken, ?jumpNotTaken, ?jumpNegative,
    ?lt, ?eq, ?eqOwnCells, ?halt⟩
  case jumpTaken | jumpNotTaken | eq => exact forall_pair_mem_cons.mpr ⟨rfl, forall_pair_mem_cons.mpr ⟨rfl, nofun⟩⟩
  case lt =>
    simp only [forall_pair_mem_cons]
    exact ⟨rfl, rfl, rfl, rfl, nofun⟩
  case mul | inOverItself | inOverHalt | outImmediate | outPosition | jumpNegative | eqOwnCells | halt => rfl

end Sys2Proof.Machine
end
